-- ==== Sys2Proof/Word.lean ====
section
/-! DEFINITION. The two widths of the block: the byte of every buffer element and the 32-bit word of every
host-visible register (00_scope.md R6, R7; 10_state.md R20). -/

namespace Sys2Proof

/-- A buffer element, `BYTE_BITS = 8` (00_scope.md R6, R7). -/
abbrev Byte := BitVec 8

/-- A host-visible register, `REG_BITS = 32` (00_scope.md R6). -/
abbrev Word := BitVec 32

end Sys2Proof
end

