-- ==== Sys2Proof/Config.lean ====
section
/-! DEFINITION. What one implementation of the block fixes (00_scope.md R6, the rows marked OPEN) and the free values
the spec calls draws. -/

namespace Sys2Proof

/-- The OPEN parameters of 00_scope.md R6. The spec calls them a parameter of the model and not state (10_state.md
R20); the machine carries them in a field that no step changes, so that a claim about every state is a claim about every
choice of them (log 1). -/
structure Config where
  /-- `MAX_IN`, the capacity of IN_MEM in bytes. -/
  maxIn : Nat
  /-- `MAX_OUT`, the capacity of OUT_MEM in bytes. -/
  maxOut : Nat
  /-- `BASE`, the host address at which the block's window starts. -/
  base : Nat
deriving DecidableEq, Repr

namespace Config

/-- The largest capacity of either buffer, `2^20` bytes (20_memory.md R51). -/
abbrev maxCapacity : Nat := 0x100000

/-- The size of the block's window, `2^22` bytes (20_memory.md R50). -/
abbrev windowSize : Nat := 0x400000

/-- DESIGN CHOICE (log 1, unsafe): the parameters of the one state called reset. The spec leaves all three OPEN. -/
def atReset : Config := { maxIn := maxCapacity, maxOut := maxCapacity, base := 0 }

/-- The free values that a host read of an unspecified byte returns (10_state.md R26, R27), one for each value of the
machine's draw counter (log 4). No body: nothing can be proved of a value. -/
opaque drawByte : Nat → Byte

/-- The free values that a host read of OUT_LEN returns while BUSY (10_state.md R28), likewise (log 4). -/
opaque drawWord : Nat → Word

end Config
end Sys2Proof
end

