-- ==== Sys2Proof/Syntax.lean ====
section
/-! DEFINITION. The commands of the block, one constructor for each row of spec/opcode_table.json. -/

namespace Sys2Proof

/-- The eight legal commands (30_encoding.md R71, R72, R74). No command has an operand (R73): each reads
`IN_MEM[0..IN_LEN)` and writes `OUT_MEM[0..OUT_LEN)`. -/
inductive Instr where
  /-- `EXTRACT`, PayloadExtractor (40_extract.md R103). -/
  | extract
  /-- `B85DEC`, Base85Decoder (41_base85.md R130). -/
  | b85dec
  /-- `XORROT`, XorRotateTransform (42_xor_rotate.md R153). -/
  | xorrot
  /-- `PARITY`, ParityFilter (43_parity.md R173). -/
  | parity
  /-- `PACK`, BitPacker (44_bitpack.md R193). -/
  | pack
  /-- `LAYER.NONE`, extract then decode (45_layer.md R212). -/
  | layerNone
  /-- `LAYER.XOR`, extract, decode, XorRotateTransform (45_layer.md R213). -/
  | layerXor
  /-- `LAYER.PARPACK`, extract, decode, ParityFilter, BitPacker (45_layer.md R214). -/
  | layerParpack
deriving DecidableEq, Repr

end Sys2Proof
end

