-- ==== Sys2Proof/WellFormed.lean ====
section
/-! DEFINITION. The checks on terms: commands, command words and parameters. -/

namespace Sys2Proof

/-- A command has no operand (30_encoding.md R73), so no command is ill-formed: this check has nothing to refuse. -/
def Instr.wf : Instr → Bool
  | .extract => true
  | .b85dec => true
  | .xorrot => true
  | .parity => true
  | .pack => true
  | .layerNone => true
  | .layerXor => true
  | .layerParpack => true

/-- The list of legal command words, as 30_encoding.md R74 gives it (mask 0xFFFFFFFF). -/
def legalWords : List Word :=
  [0x00000001#32, 0x00000002#32, 0x00000003#32, 0x00000004#32, 0x00000005#32, 0x00000006#32, 0x00000016#32,
    0x00000026#32]

/-- "A word is legal if and only if it equals one of them" (30_encoding.md R74). -/
def legalWord (w : Word) : Bool := legalWords.contains w

/-- The bounds of the OPEN parameters (00_scope.md R6; 20_memory.md R50, R51): both capacities in `[1, 2^20]`, the
base a multiple of `2^22`. -/
def Config.wf (c : Config) : Bool :=
  decide (1 ≤ c.maxIn) && decide (c.maxIn ≤ Config.maxCapacity) && decide (1 ≤ c.maxOut) &&
    decide (c.maxOut ≤ Config.maxCapacity) && decide (c.base % Config.windowSize = 0)

end Sys2Proof
end

