-- ==== Sys2Proof/Decode.lean ====
section
/-! DEFINITION. The decoder, total on every 32-bit word and rejecting by name, and after it the encoder. A command is
one whole 32-bit word written to CMD: the block has no fetch and no byte order of commands (20_memory.md R54, R61). -/

namespace Sys2Proof

/-- Why a word is no legal command (30_encoding.md R75). -/
inductive IllegalCause where
  /-- `RESERVED_BITS`: `w[31:6] != 0`. -/
  | reservedBits
  /-- `BAD_OP`: OP not in 1 to 6. -/
  | badOp
  /-- `BAD_SEL`: SEL != 0 with OP 1 to 5, or SEL = 3 with OP = 6. -/
  | badSel
deriving DecidableEq, Repr

/-- The field `OP`, bits [3:0] (30_encoding.md R70, R71). -/
def opField (w : Word) : BitVec 4 := w.extractLsb' 0 4

/-- The field `SEL`, bits [5:4] (30_encoding.md R70, R72). -/
def selField (w : Word) : BitVec 2 := w.extractLsb' 4 2

/-- The field `RSVD`, bits [31:6] (30_encoding.md R70). -/
def rsvdField (w : Word) : BitVec 26 := w.extractLsb' 6 26

/-- A command whose SEL must be 0 (30_encoding.md R72). -/
def withSelZero (sel : BitVec 2) (i : Instr) : Except IllegalCause Instr :=
  if sel = 0#2 then .ok i else .error .badSel

/-- The layer commands by their selector (30_encoding.md R72). -/
def decodeLayer (sel : BitVec 2) : Except IllegalCause Instr :=
  match sel.toNat with
  | 0 => .ok .layerNone
  | 1 => .ok .layerXor
  | 2 => .ok .layerParpack
  | _ => .error .badSel

/-- The command of a word, or the first check of 30_encoding.md R75 that fails: reserved bits, then OP, then SEL. -/
def decode (w : Word) : Except IllegalCause Instr :=
  if rsvdField w = 0#26 then
    match (opField w).toNat with
    | 1 => withSelZero (selField w) .extract
    | 2 => withSelZero (selField w) .b85dec
    | 3 => withSelZero (selField w) .xorrot
    | 4 => withSelZero (selField w) .parity
    | 5 => withSelZero (selField w) .pack
    | 6 => decodeLayer (selField w)
    | _ => .error .badOp
  else .error .reservedBits

/-- A word of the one format `CMD32` with RSVD = 0 (30_encoding.md R70). -/
def cmdWord (sel : BitVec 2) (op : BitVec 4) : Word := 0#26 ++ sel ++ op

/-- The word of a command (30_encoding.md R71, R72, R74). -/
def encode : Instr → Word
  | .extract => cmdWord 0#2 1#4
  | .b85dec => cmdWord 0#2 2#4
  | .xorrot => cmdWord 0#2 3#4
  | .parity => cmdWord 0#2 4#4
  | .pack => cmdWord 0#2 5#4
  | .layerNone => cmdWord 0#2 6#4
  | .layerXor => cmdWord 1#2 6#4
  | .layerParpack => cmdWord 2#2 6#4

/-- The word that the table's bits stand for: bit 0 of the table is bit 0 of CMD, and every bit from `nbits` up is 0. -/
def tableWord (nbits w : Nat) : Word := BitVec.ofNat 32 (w % 2 ^ nbits)

/-- The command the decoder reads from a word numbered as spec/opcode_table.json numbers it. -/
def decodeTableWord (nbits w : Nat) : Option Instr :=
  match decode (tableWord nbits w) with
  | .ok i => some i
  | .error _ => none

end Sys2Proof
end

