-- ==== Sys2Proof/Machine/State.lean ====
section
/-! DEFINITION. The state of the block (10_state.md R20), of its host port's environment, and the state after reset
(10_state.md R33). Plain data throughout. -/

namespace Sys2Proof.Machine

/-- Why the machine stops with a fault. -/
inductive Fault where
  /-- UNWRITTEN_INPUT (60_exceptions.md R238): raised by a legal command with `IN_LEN <= MAX_IN` that reads a NONE byte of
  `IN_MEM[0..IN_LEN)`. Safe: the hardware would read some byte value and go on. -/
  | unwrittenInput
deriving DecidableEq, Repr

/-- Why the model gives a command no meaning. -/
inductive Refusal where
  /-- The command has no meaning in the model yet. Raised by an arm of `exec`, and by none now. Safe: the machine stops
  where the hardware goes on. -/
  | notModelled (mnemonic : String)
deriving DecidableEq, Repr

/-- PHASE, the only sequencing state (10_state.md R22, R29). -/
inductive Phase where
  | idle
  | busy
deriving DecidableEq, Repr

/-- A buffer: its determined bytes by index, indices strictly rising. A byte of IN_MEM that is not listed is NONE (10_state.md
R26); a byte of OUT_MEM that is not listed is unspecified (10_state.md R27). -/
abbrev Memory := List Host.Cell

/-- What a byte that is not listed holds: no value. NONE in IN_MEM, unspecified in OUT_MEM (10_state.md R33). -/
def Memory.unlisted : Option Byte := none

/-- The canonical form: indices strictly rising, so equal buffers are equal lists. No entry can equal `Memory.unlisted`,
which is no byte. -/
abbrev Memory.wf (m : Memory) : Prop := m.Pairwise fun a b => a.1 < b.1

/-- One host-port access (20_memory.md R52, R53): `MemRead(addr, n)` or `MemWrite(addr, n, v)`, `n` in bytes. -/
inductive Access where
  | read (addr n : Nat)
  | write (addr n v : Nat)
deriving DecidableEq, Repr

/-- A line of a host script still to be performed, or an assertion of the reset input. The base lines of 30_encoding.md
R78 are accesses; the pseudo-instructions of R79 take one access in each step and leave the rest of their expansion behind. -/
inductive Input where
  /-- One host-port access (30_encoding.md R78). -/
  | access (a : Access)
  /-- `ISSUE <mnemonic>` (R79). -/
  | issue (i : Instr)
  /-- `WAIT` (R79). -/
  | wait
  /-- `RUN <mnemonic>` (R79). -/
  | run (i : Instr)
  /-- `LOADIN <bytes>` (R79) of which `k` bytes are written and `rest` are not. -/
  | loadIn (k : Nat) (rest : List Byte)
  /-- `READOUT` (R79), before its read of OUT_LEN. -/
  | readOut
  /-- `READOUT`, with `R8 OUT[k]` to `R8 OUT[n-1]` left. -/
  | readOutFrom (k n : Nat)
  /-- `CHAIN` (R79), before its read of OUT_LEN. -/
  | chain
  /-- `CHAIN`, with `R8 OUT[k]` to `R8 OUT[n-1]` left and `got` read so far. -/
  | chainFrom (k n : Nat) (got : List Byte)
  /-- The platform asserts reset (70_reset_and_hazards.md R260). -/
  | reset
deriving DecidableEq, Repr

/-- What the host port answers to an access (20_memory.md R52, R53). -/
inductive Response where
  /-- The value of a register read. -/
  | word (v : Word)
  /-- The value of a buffer read. -/
  | byte (v : Byte)
  /-- A write that is accepted, also one that is ignored while BUSY (70_reset_and_hazards.md R265: "returns no error"). -/
  | written
  /-- A bus error (60_exceptions.md R239). -/
  | busError
deriving DecidableEq, Repr

/-- The machine: the block (10_state.md R20) and, after it, the model's own fields (log 1 to 4). -/
structure State where
  /-- `CMD` (R23). -/
  cmd : Word
  /-- `STATUS` (R24). -/
  status : Word
  /-- `IN_LEN` (R25). -/
  inLen : Word
  /-- `OUT_LEN` (R28). -/
  outLen : Word
  /-- `IN_MEM` (R26). -/
  inMem : Memory
  /-- `OUT_MEM` (R27). -/
  outMem : Memory
  /-- `PHASE` (R29). -/
  phase : Phase
  /-- `LATCH` (R30). -/
  latch : Word
  /-- The model's parameters (00_scope.md R6); no step changes them (log 1). -/
  cfg : Config
  /-- Host-port steps left before the running command completes (30_encoding.md R82, log 2). -/
  remaining : Nat
  /-- The `LATENCY` of each command still to be issued, the model's schedule (70_reset_and_hazards.md R270, log 2). -/
  schedule : List Nat
  /-- Script lines and resets still to be performed, oldest first (log 3). -/
  inputs : List Input
  /-- What the host port answered, newest first (70_reset_and_hazards.md R271, log 3). -/
  responses : List Response
  /-- How many free values have been drawn (log 4). -/
  draws : Nat
deriving DecidableEq, Repr

/-- The machine right after reset (10_state.md R33; 70_reset_and_hazards.md R261: "IDLE, runs nothing and fetches
nothing"). The model's own fields are DESIGN CHOICE (log 1 to 4). -/
def State.reset : State where
  cmd := 0x00000000#32
  status := 0x00000000#32
  inLen := 0x00000000#32
  outLen := 0x00000000#32
  inMem := []
  outMem := []
  phase := .idle
  latch := 0x00000000#32
  cfg := Config.atReset
  remaining := 0
  schedule := []
  inputs := []
  responses := []
  draws := 0

end Sys2Proof.Machine
end

