-- ==== Sys2Proof/Machine/Flags.lean ====
section
/-! DEFINITION. The error and cause codes (60_exceptions.md R231) and every value of STATUS (10_state.md R24, R31). -/

namespace Sys2Proof.Machine

/-- The twelve errors a command can complete with (60_exceptions.md R231). -/
inductive Err where
  /-- MARKER_NOT_FOUND / START_MISSING. -/
  | startMissing
  /-- MARKER_NOT_FOUND / END_MISSING. -/
  | endMissing
  /-- DECODE_ERROR / BRACKET. -/
  | bracket
  /-- DECODE_ERROR / BAD_CHAR. -/
  | badChar
  /-- DECODE_ERROR / Z_IN_GROUP. -/
  | zInGroup
  /-- DECODE_ERROR / FINAL_LEN1. -/
  | finalLen1
  /-- DECODE_ERROR / OVERFLOW. -/
  | overflow
  /-- ILLEGAL_COMMAND / RESERVED_BITS, BAD_OP or BAD_SEL. -/
  | illegal (c : IllegalCause)
  /-- CAPACITY / IN_RANGE. -/
  | inRange
  /-- CAPACITY / OUT_RANGE. -/
  | outRange
deriving DecidableEq, Repr

/-- The code written to `STATUS.ERR` (60_exceptions.md R231, first column). -/
def Err.code : Err → BitVec 4
  | .startMissing => 1#4
  | .endMissing => 1#4
  | .bracket => 2#4
  | .badChar => 2#4
  | .zInGroup => 2#4
  | .finalLen1 => 2#4
  | .overflow => 2#4
  | .illegal _ => 3#4
  | .inRange => 4#4
  | .outRange => 4#4

/-- The code written to `STATUS.CAUSE` (60_exceptions.md R231, third column). -/
def Err.cause : Err → BitVec 4
  | .startMissing => 1#4
  | .endMissing => 2#4
  | .bracket => 1#4
  | .badChar => 2#4
  | .zInGroup => 3#4
  | .finalLen1 => 4#4
  | .overflow => 5#4
  | .illegal .reservedBits => 1#4
  | .illegal .badOp => 2#4
  | .illegal .badSel => 3#4
  | .inRange => 1#4
  | .outRange => 2#4

/-- STATUS after reset (10_state.md R33). -/
def statusReset : Word := 0x00000000#32

/-- STATUS while a command runs: BUSY = 1, the rest 0 (30_encoding.md R80). -/
def statusRunning : Word := 0x00000001#32

/-- STATUS after a successful completion: DONE = 1, the rest 0 (30_encoding.md R82). -/
def statusOk : Word := 0x00000002#32

/-- STATUS after an error completion, `(c << 8) | (e << 4) | 0x2` (60_exceptions.md R236). -/
def statusErr (e : Err) : Word :=
  (e.cause.setWidth 32 <<< 8) ||| (e.code.setWidth 32 <<< 4) ||| 0x2#32

/-- `STATUS.BUSY`, bit [0] (10_state.md R24). -/
def statusBusy (w : Word) : Bool := w.getLsbD 0

/-- `STATUS.DONE`, bit [1] (10_state.md R24). -/
def statusDone (w : Word) : Bool := w.getLsbD 1

/-- `STATUS.ERR`, bits [7:4] (10_state.md R24). -/
def statusErrField (w : Word) : BitVec 4 := w.extractLsb' 4 4

/-- `STATUS.CAUSE`, bits [11:8] (10_state.md R24). -/
def statusCauseField (w : Word) : BitVec 4 := w.extractLsb' 8 4

/-- The reserved bits of STATUS, [31:12] and [3:2], which read 0 (10_state.md R24). -/
def statusReserved (w : Word) : BitVec 22 := w.extractLsb' 12 20 ++ w.extractLsb' 2 2

end Sys2Proof.Machine
end

