-- ==== Sys2Proof/Machine/Operands.lean ====
section
/-! DEFINITION. The operands: bytes of a buffer, the implicit input and output of every command (30_encoding.md R73), the
serialization of numbers (00_scope.md R12), and the locations a host-port access names (20_memory.md R50, R52). -/

namespace Sys2Proof.Machine

/-- The byte at index `i` of a buffer, or none where it is NONE or unspecified (10_state.md R26, R27). -/
def Memory.read : Memory → Nat → Option Byte
  | [], _ => Memory.unlisted
  | (a, b) :: m, i => if a = i then some b else Memory.read m i

/-- Store one byte, keeping the indices strictly rising (20_memory.md R53). -/
def Memory.write : Memory → Nat → Byte → Memory
  | [], i, v => [(i, v)]
  | (a, b) :: m, i, v =>
    if i < a then (i, v) :: (a, b) :: m
    else if i = a then (i, v) :: m
    else (a, b) :: Memory.write m i v

/-- The buffer whose byte `k + j` is byte `j` of `bs` and that holds nothing else. -/
def Memory.ofBytesFrom (k : Nat) : List Byte → Memory
  | [] => []
  | b :: bs => (k, b) :: Memory.ofBytesFrom (k + 1) bs

/-- The buffer that holds `bs` from index 0 and is unspecified elsewhere (30_encoding.md R82). -/
def Memory.ofBytes (bs : List Byte) : Memory := Memory.ofBytesFrom 0 bs

/-- The `n` bytes from index `k`, or none where one of them holds no value. -/
def Memory.readRange (m : Memory) (k : Nat) : Nat → Option (List Byte)
  | 0 => some []
  | n + 1 =>
    match m.read k, m.readRange (k + 1) n with
    | some b, some bs => some (b :: bs)
    | _, _ => none

/-- The input operand of every command, `IN_MEM[0..IN_LEN)` (30_encoding.md R73), or none where a byte of it is NONE. -/
def State.input (s : State) : Option (List Byte) := s.inMem.readRange 0 s.inLen.toNat

/-- The output operand of every command, `OUT_MEM[0..OUT_LEN)` (30_encoding.md R73), as a completed command left it. -/
def State.output (s : State) : Option (List Byte) := s.outMem.readRange 0 s.outLen.toNat

/-- `be(v, n)`: the `n` bytes of `v`, most significant first (00_scope.md R12). -/
def be (v : Nat) : Nat → List Byte
  | 0 => []
  | n + 1 => BitVec.ofNat 8 (v >>> (8 * n)) :: be v n

/-- The check that a stage's output fits OUT_MEM (60_exceptions.md R234). -/
def fitsOut (maxOut : Nat) (s : List Byte) : Except Err (List Byte) :=
  if maxOut < s.length then .error .outRange else .ok s

/-- A location of the host port (20_memory.md R50). -/
inductive Target where
  | cmd
  | status
  | inLen
  | outLen
  /-- `IN_MEM[i]`. -/
  | inByte (i : Nat)
  /-- `OUT_MEM[i]`. -/
  | outByte (i : Nat)
deriving DecidableEq, Repr

/-- Offset of CMD (20_memory.md R50). -/
abbrev cmdOffset : Nat := 0x000000
/-- Offset of STATUS (20_memory.md R50). -/
abbrev statusOffset : Nat := 0x000004
/-- Offset of IN_LEN (20_memory.md R50). -/
abbrev inLenOffset : Nat := 0x000008
/-- Offset of OUT_LEN (20_memory.md R50). -/
abbrev outLenOffset : Nat := 0x00000C
/-- Offset of `IN_MEM[0]` (20_memory.md R50). -/
abbrev inMemOffset : Nat := 0x100000
/-- Offset of `OUT_MEM[0]` (20_memory.md R50). -/
abbrev outMemOffset : Nat := 0x200000

/-- The register at an offset, for a 4-byte access (20_memory.md R50, R52). -/
def registerAt (off : Nat) : Option Target :=
  if off = cmdOffset then some .cmd
  else if off = statusOffset then some .status
  else if off = inLenOffset then some .inLen
  else if off = outLenOffset then some .outLen
  else none

/-- The buffer byte at an offset, for a 1-byte access (20_memory.md R50, R52). -/
def bufferByteAt (c : Config) (off : Nat) : Option Target :=
  if inMemOffset ≤ off ∧ off < inMemOffset + c.maxIn then some (.inByte (off - inMemOffset))
  else if outMemOffset ≤ off ∧ off < outMemOffset + c.maxOut then some (.outByte (off - outMemOffset))
  else none

/-- The location an access of `n` bytes at `addr` names, or none where no such access is accepted (20_memory.md R50, R52).
An address outside the window names no location (log 6). -/
def target (c : Config) (addr n : Nat) : Option Target :=
  if c.base ≤ addr ∧ addr < c.base + Config.windowSize then
    if n = 4 then registerAt (addr - c.base)
    else if n = 1 then bufferByteAt c (addr - c.base)
    else none
  else none

end Sys2Proof.Machine
end

