-- ==== Sys2Proof/Machine/Ops.lean ====
section
/-! DEFINITION. The named operations the commands and the host port share: issue, successful completion, error completion (the
block's one form of exception), the frame of every command, and reset. -/

namespace Sys2Proof.Machine

/-- Issue of a command word while IDLE (30_encoding.md R80). OUT_MEM becomes unspecified (R80; 70_reset_and_hazards.md
R267); the stored OUT_LEN stays and is not readable while BUSY (R266, log 5). The command's LATENCY is the next of the schedule
(log 2). Issue is also the only recovery from an error: it clears ERR and CAUSE (60_exceptions.md R237). -/
def State.issue (w : Word) (s : State) : State :=
  { s with
    cmd := w
    latch := w
    status := statusRunning
    phase := .busy
    outMem := []
    remaining := s.schedule.headD 0
    schedule := s.schedule.tail }

/-- Successful completion with the result `bs` (30_encoding.md R82). -/
def State.completeOk (bs : List Byte) (s : State) : State :=
  { s with
    outMem := Memory.ofBytes bs
    outLen := BitVec.ofNat 32 bs.length
    status := statusOk
    phase := .idle }

/-- Error completion (60_exceptions.md R236): the block's one way of taking an exception. Nothing is saved and there is no
return from it (R237). -/
def State.completeErr (e : Err) (s : State) : State :=
  { s with
    outLen := 0#32
    outMem := []
    status := statusErr e
    phase := .idle }

/-- The reset input (70_reset_and_hazards.md R260): every piece of the block's state takes its value of 10_state.md R33, and a
running command is abandoned. The parameters, the script, the responses and the draws are not the block's state. -/
def State.resetBlock (s : State) : State :=
  { s with
    cmd := 0#32
    status := statusReset
    inLen := 0#32
    outLen := 0#32
    inMem := []
    outMem := []
    phase := .idle
    latch := 0#32
    remaining := 0 }

/-- Completion with the result of a command's function (30_encoding.md R82, 60_exceptions.md R236). -/
def State.complete (r : Except Err (List Byte)) (s : State) : State :=
  match r with
  | .ok bs => s.completeOk bs
  | .error e => s.completeErr e

/-- What every legal command does with its unit function `f`, from the check of IN_LEN on (30_encoding.md R81, R82): IN_RANGE,
the read of the input (UNWRITTEN_INPUT where a byte is NONE, 60_exceptions.md R238), the function, OUT_RANGE of the result, and
completion. -/
def runUnit (f : List Byte → Except Err (List Byte)) (s : State) : Host.Outcome State Fault Refusal :=
  if s.cfg.maxIn < s.inLen.toNat then .next (s.completeErr .inRange)
  else
    match s.input with
    | none => .fault .unwrittenInput
    | some x => .next (s.complete ((f x).bind (fitsOut s.cfg.maxOut)))

end Sys2Proof.Machine
end

