-- ==== Sys2Proof/Machine/Base85.lean ====
section
/-! DEFINITION. Base85Decoder and B85DEC (41_base85.md). -/

namespace Sys2Proof.Machine

/-- `B85_PAD`, the digit that completes a short final group (41_base85.md R126; 90_conflicts.md C2). -/
abbrev b85Pad : Nat := 84

/-- The value of a group of digits in radix 85, the first most significant, computed exactly (41_base85.md R122). -/
def groupValue (g : List Nat) : Nat := g.foldl (fun v d => v * 85 + d) 0

/-- The four bytes of a group, or OVERFLOW where its value is above 0xFFFFFFFF (41_base85.md R127). -/
def groupBytes (g : List Nat) : Except Err (List Byte) :=
  if 0xFFFFFFFF < groupValue g then .error .overflow else .ok (be (groupValue g) 4)

/-- The end of the body with the digits `g` pending (41_base85.md R126). -/
def finalGroup (g : List Nat) : Except Err (List Byte) :=
  if g.length = 0 then .ok []
  else if g.length = 1 then .error .finalLen1
  else (groupBytes (g ++ List.replicate (5 - g.length) b85Pad)).map (List.take (g.length - 1))

/-- A digit character, `!` to `u` (41_base85.md R123). -/
def isDigit (c : Byte) : Bool := decide (33 ≤ c.toNat) && decide (c.toNat ≤ 117)

/-- The scan of the body with the digits `g` pending, left to right (41_base85.md R121, R129): a character after the first error
is never examined. -/
def scanBody (g : List Nat) : List Byte → Except Err (List Byte)
  | [] => finalGroup g
  | c :: cs =>
    if isDigit c then
      if g.length = 4 then
        match groupBytes (g ++ [c.toNat - 33]) with
        | .error e => .error e
        | .ok bs => (scanBody [] cs).map (bs ++ ·)
      else scanBody (g ++ [c.toNat - 33]) cs
    else if c = 0x7A#8 then
      if g.length = 0 then (scanBody [] cs).map ([0x00#8, 0x00#8, 0x00#8, 0x00#8] ++ ·)
      else .error .zInGroup
    else .error .badChar

/-- The bracket check of `B85Decode` (41_base85.md R121, first lines; decision D8). -/
def bracketed (p : List Byte) : Bool :=
  decide (4 ≤ p.length) && (p.take 2 == [0x3C#8, 0x7E#8]) && (p.drop (p.length - 2) == [0x7E#8, 0x3E#8])

/-- `B85Decode(P)` (41_base85.md R121). -/
def b85Decode (p : List Byte) : Except Err (List Byte) :=
  if bracketed p then scanBody [] ((p.drop 2).take (p.length - 4)) else .error .bracket

/-- B85DEC (41_base85.md R130). -/
def execB85dec (s : State) : Host.Outcome State Fault Refusal := runUnit b85Decode s

end Sys2Proof.Machine
end

