-- ==== Sys2Proof/Machine/BitPack.lean ====
section
/-! DEFINITION. BitPacker and PACK (44_bitpack.md). -/

namespace Sys2Proof.Machine

/-- The part of the accumulator that the bytes from index `i` of a group contribute: `value << (7 * (7 - i))` for each, or-ed
(44_bitpack.md R191). -/
def packAccFrom (i : Nat) : List Byte → Nat
  | [] => 0
  | b :: g => ((b.toNat >>> 1) <<< (7 * (7 - i))) ||| packAccFrom (i + 1) g

/-- The 56-bit accumulator of a group of at most 8 bytes (44_bitpack.md R191). -/
def packAcc (g : List Byte) : Nat := packAccFrom 0 g

/-- Group `q` of the buffer, `s[8*q .. min(8*q + 8, n))` (44_bitpack.md R191). -/
def packGroup (s : List Byte) (q : Nat) : List Byte := (s.drop (8 * q)).take 8

/-- `BitPack(s)`: one block of 7 bytes for each group, most significant first (44_bitpack.md R191). -/
def bitPack (s : List Byte) : List Byte :=
  (List.range ((s.length + 7) / 8)).flatMap fun q => be (packAcc (packGroup s q)) 7

/-- PACK (44_bitpack.md R193). -/
def execPack (s : State) : Host.Outcome State Fault Refusal := runUnit (fun x => .ok (bitPack x)) s

end Sys2Proof.Machine
end

