-- ==== Sys2Proof/Machine/Extract.lean ====
section
/-! DEFINITION. PayloadExtractor and EXTRACT (40_extract.md). -/

namespace Sys2Proof.Machine

/-- The bytes PayloadExtractor strips, `WS` (40_extract.md R102). -/
def whitespace : List Byte := [0x09#8, 0x0A#8, 0x0B#8, 0x0C#8, 0x0D#8, 0x20#8]

/-- Membership in `WS`. -/
def isWhitespace (b : Byte) : Bool := whitespace.contains b

/-- The least index `i` with `s[i] = a` and `s[i+1] = b`, the minimum of the set of 40_extract.md R101, or none where the set is
empty. -/
def findPair (a b : Byte) : List Byte → Option Nat
  | [] => none
  | [_] => none
  | x :: y :: s => if x = a ∧ y = b then some 0 else (findPair a b (y :: s)).map (· + 1)

/-- `Extract(C)` (40_extract.md R101). The end marker is searched from the index of the start marker itself (decision D35), and
both markers are found before any byte is stripped (R102). -/
def extract (c : List Byte) : Except Err (List Byte) :=
  match findPair 0x3C#8 0x7E#8 c with
  | none => .error .startMissing
  | some s =>
    match findPair 0x7E#8 0x3E#8 (c.drop s) with
    | none => .error .endMissing
    | some k => .ok (((c.drop s).take (k + 2)).filter fun b => !isWhitespace b)

/-- EXTRACT (40_extract.md R103). -/
def execExtract (s : State) : Host.Outcome State Fault Refusal := runUnit extract s

end Sys2Proof.Machine
end

