-- ==== Sys2Proof/Machine/Parity.lean ====
section
/-! DEFINITION. ParityFilter and PARITY (43_parity.md; 90_conflicts.md C1: the formula wins). -/

namespace Sys2Proof.Machine

/-- `popcount(a)`, the number of 1 bits of a byte (00_scope.md R11). -/
def popcount (a : Byte) : Nat := (List.range 8).countP fun i => a.getLsbD i

/-- `valid(b)` (43_parity.md R171). -/
def parityValid (b : Byte) : Bool :=
  let payload7 := b >>> 1
  let parityBit := b &&& 1#8
  let ones := popcount payload7
  (decide (ones % 2 = 0) && decide (parityBit = 0#8)) || (decide (ones % 2 = 1) && decide (parityBit = 1#8))

/-- `ParityFilter(s)`: the valid bytes, in order (43_parity.md R171). -/
def parityFilter (s : List Byte) : List Byte := s.filter parityValid

/-- PARITY (43_parity.md R173). -/
def execParity (s : State) : Host.Outcome State Fault Refusal := runUnit (fun x => .ok (parityFilter x)) s

end Sys2Proof.Machine
end

