-- ==== Sys2Proof/Machine/XorRotate.lean ====
section
/-! DEFINITION. XorRotateTransform and XORROT (42_xor_rotate.md). -/

namespace Sys2Proof.Machine

/-- Rotate right by one within 8 bits (42_xor_rotate.md R151). -/
def rotr8 (x : Byte) : Byte := (x >>> 1) ||| ((x &&& 1#8) <<< 7)

/-- `xr8(b)`: XOR with 0x55, then rotate right by one (42_xor_rotate.md R151). -/
def xr8 (b : Byte) : Byte := rotr8 (b ^^^ 0x55#8)

/-- `XorRotate(s)`: every byte on its own, in order (42_xor_rotate.md R151). -/
def xorRotate (s : List Byte) : List Byte := s.map xr8

/-- XORROT (42_xor_rotate.md R153). -/
def execXorrot (s : State) : Host.Outcome State Fault Refusal := runUnit (fun x => .ok (xorRotate x)) s

end Sys2Proof.Machine
end

