-- ==== Sys2Proof/Machine/Layer.lean ====
section
/-! DEFINITION. The layer pipeline and the LAYER commands (45_layer.md). -/

namespace Sys2Proof.Machine

/-- Extract then decode, with the capacity check of the payload between them (45_layer.md R211, first three lines). -/
def extractDecode (maxOut : Nat) (c : List Byte) : Except Err (List Byte) :=
  ((extract c).bind (fitsOut maxOut)).bind b85Decode

/-- `Layer(0, C)` (45_layer.md R211). -/
def layerNone (maxOut : Nat) (c : List Byte) : Except Err (List Byte) := extractDecode maxOut c

/-- `Layer(1, C)` (45_layer.md R211). -/
def layerXor (maxOut : Nat) (c : List Byte) : Except Err (List Byte) :=
  ((extractDecode maxOut c).bind (fitsOut maxOut)).map xorRotate

/-- `Layer(2, C)` (45_layer.md R211). -/
def layerParpack (maxOut : Nat) (c : List Byte) : Except Err (List Byte) :=
  ((extractDecode maxOut c).bind (fitsOut maxOut)).map fun d => bitPack (parityFilter d)

/-- LAYER.NONE (45_layer.md R212). -/
def execLayerNone (s : State) : Host.Outcome State Fault Refusal := runUnit (layerNone s.cfg.maxOut) s

/-- LAYER.XOR (45_layer.md R213). -/
def execLayerXor (s : State) : Host.Outcome State Fault Refusal := runUnit (layerXor s.cfg.maxOut) s

/-- LAYER.PARPACK (45_layer.md R214). -/
def execLayerParpack (s : State) : Host.Outcome State Fault Refusal := runUnit (layerParpack s.cfg.maxOut) s

end Sys2Proof.Machine
end

