-- ==== Sys2Proof/Machine/Dispatch.lean ====
section
/-! DEFINITION. The dispatch of a command to its meaning (30_encoding.md R81, the case on `op`). -/

namespace Sys2Proof.Machine

/-- The atomic completion of a legal command (30_encoding.md R81, R82; 60_exceptions.md R236). -/
def exec (i : Instr) (s : State) : Host.Outcome State Fault Refusal :=
  match i with
  | .extract => Sys2Proof.Machine.execExtract s
  | .b85dec => Sys2Proof.Machine.execB85dec s
  | .xorrot => Sys2Proof.Machine.execXorrot s
  | .parity => Sys2Proof.Machine.execParity s
  | .pack => Sys2Proof.Machine.execPack s
  | .layerNone => Sys2Proof.Machine.execLayerNone s
  | .layerXor => Sys2Proof.Machine.execLayerXor s
  | .layerParpack => Sys2Proof.Machine.execLayerParpack s

end Sys2Proof.Machine
end

