-- ==== Sys2Proof/Machine/HostPort.lean ====
section
/-! DEFINITION. The host port: what an access reads, writes and answers (20_memory.md R52 to R56; 70_reset_and_hazards.md R265,
R266). -/

namespace Sys2Proof.Machine

/-- A byte read of a buffer: the byte, or the next draw where it holds no value. The second component is the draw counter
afterwards. -/
def byteOrDraw (b : Option Byte) (draws : Nat) : Response × Nat :=
  match b with
  | some v => (.byte v, draws)
  | none => (.byte (Config.drawByte draws), draws + 1)

/-- What a read of a location returns, and the draw counter afterwards (20_memory.md R53; 10_state.md R28;
70_reset_and_hazards.md R266). No read changes the block (20_memory.md R56). -/
def readTarget (t : Target) (s : State) : Response × Nat :=
  match t with
  | .cmd => (.word s.cmd, s.draws)
  | .status => (.word s.status, s.draws)
  | .inLen => (.word s.inLen, s.draws)
  | .outLen =>
    match s.phase with
    | .idle => (.word s.outLen, s.draws)
    | .busy => (.word (Config.drawWord s.draws), s.draws + 1)
  | .inByte i => byteOrDraw (s.inMem.read i) s.draws
  | .outByte i =>
    match s.phase with
    | .idle => byteOrDraw (if i < s.outLen.toNat then s.outMem.read i else none) s.draws
    | .busy => byteOrDraw none s.draws

/-- What a write to a location does while IDLE; none is a bus error (20_memory.md R52, R53). -/
def writeTarget (t : Target) (v : Nat) (s : State) : Option State :=
  match t with
  | .cmd => some (s.issue (BitVec.ofNat 32 v))
  | .inLen => some { s with inLen := BitVec.ofNat 32 v }
  | .inByte i => some { s with inMem := s.inMem.write i (BitVec.ofNat 8 v) }
  | .status => none
  | .outLen => none
  | .outByte _ => none

/-- An accepted write while BUSY is ignored (70_reset_and_hazards.md R265); a refused one is a bus error at all times. -/
def ignoreWhileBusy (s : State) (written : State) : State :=
  match s.phase with
  | .idle => written
  | .busy => s

/-- The host port records its answer (70_reset_and_hazards.md R271). -/
def State.respond (r : Response) (s : State) : State := { s with responses := r :: s.responses }

/-- One host-port access: the answer is recorded, and a refused access changes nothing else (20_memory.md R52; 60_exceptions.md
R239). -/
def performAccess (a : Access) (s : State) : State :=
  match a with
  | .read addr n =>
    match target s.cfg addr n with
    | none => s.respond .busError
    | some t => { s with draws := (readTarget t s).2 }.respond (readTarget t s).1
  | .write addr n v =>
    match (target s.cfg addr n).bind fun t => writeTarget t v s with
    | none => s.respond .busError
    | some s' => (ignoreWhileBusy s s').respond .written

end Sys2Proof.Machine
end

