-- ==== Sys2Proof/Machine/Script.lean ====
section
/-! DEFINITION. The HOST: host scripts, one host-port access a step (30_encoding.md R78, R79), and the platform's reset
(70_reset_and_hazards.md R260). -/

namespace Sys2Proof.Machine

/-- `W32 <register>, v` (30_encoding.md R78). -/
def w32 (c : Config) (off v : Nat) : Access := .write (c.base + off) 4 v

/-- `R32 <register>` (30_encoding.md R78). -/
def r32 (c : Config) (off : Nat) : Access := .read (c.base + off) 4

/-- `W8 IN[i], b` (30_encoding.md R78). -/
def w8In (c : Config) (i : Nat) (b : Byte) : Access := .write (c.base + inMemOffset + i) 1 b.toNat

/-- `R8 IN[i]` (30_encoding.md R78). -/
def r8In (c : Config) (i : Nat) : Access := .read (c.base + inMemOffset + i) 1

/-- `R8 OUT[i]` (30_encoding.md R78). -/
def r8Out (c : Config) (i : Nat) : Access := .read (c.base + outMemOffset + i) 1

/-- The access of `ISSUE <mnemonic>` (30_encoding.md R79). -/
def issueAccess (c : Config) (i : Instr) : Access := w32 c cmdOffset (encode i).toNat

/-- The value of the register read just performed. -/
def State.lastWord (s : State) : Word :=
  match s.responses.head? with
  | some (.word v) => v
  | _ => 0#32

/-- The value of the buffer read just performed, as a list of one byte; empty where it was a bus error. -/
def State.lastByte (s : State) : List Byte :=
  match s.responses.head? with
  | some (.byte v) => [v]
  | _ => []

/-- What is left of READOUT with `R8 OUT[k]` to `R8 OUT[n-1]` to do (30_encoding.md R79). -/
def readOutRest (k n : Nat) : List Input := if k < n then [.readOutFrom k n] else []

/-- What is left of CHAIN: the reads, and after the last of them `LOADIN` of what they gave (30_encoding.md R79). -/
def chainRest (k n : Nat) (got : List Byte) : List Input := if k < n then [.chainFrom k n got] else [.loadIn 0 got]

/-- Lines put in front of the script. -/
def State.pushInputs (ls : List Input) (s : State) : State := { s with inputs := ls ++ s.inputs }

/-- What one line of a script does in one host-port step, the line itself already taken off (30_encoding.md R78, R79). -/
def performInput (l : Input) (s : State) : State :=
  match l with
  | .access a => performAccess a s
  | .issue i => performAccess (issueAccess s.cfg i) s
  | .wait =>
    let t := performAccess (r32 s.cfg statusOffset) s
    if statusDone t.lastWord then t else t.pushInputs [.wait]
  | .run i => (performAccess (issueAccess s.cfg i) s).pushInputs [.wait]
  | .loadIn k [] => performAccess (w32 s.cfg inLenOffset k) s
  | .loadIn k (b :: bs) => (performAccess (w8In s.cfg k b) s).pushInputs [.loadIn (k + 1) bs]
  | .readOut =>
    let t := performAccess (r32 s.cfg outLenOffset) s
    t.pushInputs (readOutRest 0 t.lastWord.toNat)
  | .readOutFrom k n => (performAccess (r8Out s.cfg k) s).pushInputs (readOutRest (k + 1) n)
  | .chain =>
    let t := performAccess (r32 s.cfg outLenOffset) s
    t.pushInputs (chainRest 0 t.lastWord.toNat [])
  | .chainFrom k n got =>
    let t := performAccess (r8Out s.cfg k) s
    t.pushInputs (chainRest (k + 1) n (got ++ t.lastByte))
  | .reset => s.resetBlock

/-- One host-port step: the HOST performs the next line of its script, or nothing where it has none. -/
def hostTurn (s : State) : State :=
  match s.inputs with
  | [] => s
  | l :: ls => performInput l { s with inputs := ls }

/-- A running command's LATENCY is counted in host-port steps (30_encoding.md R82). -/
def State.tick (s : State) : State := { s with remaining := s.remaining - 1 }

end Sys2Proof.Machine
end

