-- ==== Sys2Proof/Machine/Step.lean ====
section
/-! DEFINITION. One step of the machine: the core's completion of the running command when its LATENCY is over, else one host-port
step. -/

namespace Sys2Proof.Machine

/-- The completion of the running command (30_encoding.md R81, R82): the core decodes LATCH (10_state.md R30); an illegal word
completes with ILLEGAL_COMMAND (60_exceptions.md R232). -/
def coreStep (s : State) : Host.Outcome State Fault Refusal :=
  match decode s.latch with
  | .ok i => exec i s
  | .error c => .next (s.completeErr (.illegal c))

/-- One step. While IDLE the HOST acts. While BUSY the HOST acts as long as host-port steps of LATENCY remain, then the core
completes the command (30_encoding.md R82; 70_reset_and_hazards.md R270). -/
def step (s : State) : Host.Outcome State Fault Refusal :=
  match s.phase with
  | .idle => .next (hostTurn s)
  | .busy => if s.remaining = 0 then coreStep s else .next (hostTurn s.tick)

/-- The state in which the next step runs exactly the command word `w`: the word stands in LATCH, where the core decodes it, as after
an issue with LATENCY 0 (30_encoding.md R80; log 7). -/
def State.withFetchWord (s : State) (nbits w : Nat) : State :=
  { s with
    cmd := tableWord nbits w
    latch := tableWord nbits w
    status := statusRunning
    phase := .busy
    remaining := 0 }

end Sys2Proof.Machine
end

