-- ==== Sys2Proof/Machine/Reference.lean ====
section
/-! DEFINITION. Functions the spec states laws with, which no command runs: its own pseudocode transcribed line by line (30_encoding.md
R81, 41_base85.md R121, 45_layer.md R211), the base-85 encoder (41_base85.md R131), the inverse of `xr8` (42_xor_rotate.md R154), the
byte form of a full block (44_bitpack.md R194) and the net effect of LOADIN (30_encoding.md R79). -/

namespace Sys2Proof.Machine

/-- `be(v, n)` by index (00_scope.md R12). -/
def beRef (v n : Nat) : List Byte := (List.range n).map fun k => BitVec.ofNat 8 ((v >>> (8 * (n - 1 - k))) % 256)

/-- `GroupValue(g)` by its formula (41_base85.md R122). -/
def groupValueRef (g : List Nat) : Nat :=
  g.getD 0 0 * 85 ^ 4 + g.getD 1 0 * 85 ^ 3 + g.getD 2 0 * 85 ^ 2 + g.getD 3 0 * 85 + g.getD 4 0

/-- The body of the `for` loop of `B85Decode` on `(out, g)` (41_base85.md R121). -/
def decodeLoopStep (st : List Byte × List Nat) (c : Byte) : Except Err (List Byte × List Nat) :=
  if 33 ≤ c.toNat ∧ c.toNat ≤ 117 then
    if (st.2 ++ [c.toNat - 33]).length = 5 then
      if 0xFFFFFFFF < groupValueRef (st.2 ++ [c.toNat - 33]) then .error .overflow
      else .ok (st.1 ++ beRef (groupValueRef (st.2 ++ [c.toNat - 33])) 4, [])
    else .ok (st.1, st.2 ++ [c.toNat - 33])
  else if c.toNat = 122 then
    if st.2.length ≠ 0 then .error .zInGroup
    else .ok (st.1 ++ [0x00#8, 0x00#8, 0x00#8, 0x00#8], st.2)
  else .error .badChar

/-- The `for` loop of `B85Decode` from `(out, g)` (41_base85.md R121). -/
def decodeLoop (st : List Byte × List Nat) (body : List Byte) : Except Err (List Byte × List Nat) :=
  body.foldlM decodeLoopStep st

/-- The lines of `B85Decode` after the loop (41_base85.md R121, R126). -/
def decodeFinish (st : List Byte × List Nat) : Except Err (List Byte) :=
  if st.2.length = 1 then .error .finalLen1
  else if 2 ≤ st.2.length then
    if 0xFFFFFFFF < groupValueRef (st.2 ++ List.replicate (5 - st.2.length) 84) then .error .overflow
    else .ok (st.1 ++ (beRef (groupValueRef (st.2 ++ List.replicate (5 - st.2.length) 84)) 4).take (st.2.length - 1))
  else .ok st.1

/-- `B85Decode(P)`, line by line (41_base85.md R121). -/
def b85DecodeRef (p : List Byte) : Except Err (List Byte) :=
  if p.length < 4 ∨ p.take 2 ≠ [0x3C#8, 0x7E#8] ∨ p.drop (p.length - 2) ≠ [0x7E#8, 0x3E#8] then .error .bracket
  else (decodeLoop ([], []) ((p.drop 2).take (p.length - 2 - 2))).bind decodeFinish

/-- `Layer(sel, C)`, line by line (45_layer.md R211). -/
def layerRef (maxOut sel : Nat) (c : List Byte) : Except Err (List Byte) :=
  match extract c with
  | .error e => .error e
  | .ok p =>
    if maxOut < p.length then .error .outRange
    else
      match b85Decode p with
      | .error e => .error e
      | .ok d =>
        if sel = 0 then .ok d
        else if maxOut < d.length then .error .outRange
        else if sel = 1 then .ok (xorRotate d)
        else .ok (bitPack (parityFilter d))

/-- The unit function of a command (00_scope.md R2, 45_layer.md R212 to R214). -/
def unitOf (maxOut : Nat) : Instr → List Byte → Except Err (List Byte)
  | .extract => extract
  | .b85dec => b85Decode
  | .xorrot => fun x => .ok (xorRotate x)
  | .parity => fun x => .ok (parityFilter x)
  | .pack => fun x => .ok (bitPack x)
  | .layerNone => layerNone maxOut
  | .layerXor => layerXor maxOut
  | .layerParpack => layerParpack maxOut

/-- The case on `op` of `Execute` (30_encoding.md R81). -/
def unitRef (maxOut op sel : Nat) (x : List Byte) : Except Err (List Byte) :=
  if op = 1 then extract x
  else if op = 2 then b85Decode x
  else if op = 3 then .ok (xorRotate x)
  else if op = 4 then .ok (parityFilter x)
  else if op = 5 then .ok (bitPack x)
  else layerRef maxOut sel x

/-- `Execute(w, n, M)`, line by line; none is the model fault UNWRITTEN_INPUT (30_encoding.md R81). -/
def executeRef (c : Config) (w n : Nat) (m : Memory) : Option (Except Err (List Byte)) :=
  if w / 64 ≠ 0 then some (.error (.illegal .reservedBits))
  else if w % 16 < 1 ∨ 6 < w % 16 then some (.error (.illegal .badOp))
  else if (w % 16 ≠ 6 ∧ w / 16 % 4 ≠ 0) ∨ (w % 16 = 6 ∧ w / 16 % 4 = 3) then some (.error (.illegal .badSel))
  else if c.maxIn < n then some (.error .inRange)
  else
    match m.readRange 0 n with
    | none => none
    | some x =>
      match unitRef c.maxOut (w % 16) (w / 16 % 4) x with
      | .error e => some (.error e)
      | .ok s => if c.maxOut < s.length then some (.error .outRange) else some (.ok s)

/-- The five digit characters of a 32-bit value (41_base85.md R122, R123, R131). -/
def digitChars (v : Nat) : List Byte :=
  [v / 85 ^ 4, v / 85 ^ 3 % 85, v / 85 ^ 2 % 85, v / 85 % 85, v % 85].map fun d => BitVec.ofNat 8 (d + 33)

/-- The value of four bytes, most significant first (41_base85.md R131). -/
def bytesValue (a b c d : Byte) : Nat := ((a.toNat * 256 + b.toNat) * 256 + c.toNat) * 256 + d.toNat

/-- What `Encode` writes between the brackets (41_base85.md R131): `z` for an all-zero full group, five digits for another, and for a
final group of `k` bytes the first `k + 1` digits of the group padded with zero bytes. -/
def encodeBody : List Byte → List Byte
  | [] => []
  | [a] => (digitChars (bytesValue a 0 0 0)).take 2
  | [a, b] => (digitChars (bytesValue a b 0 0)).take 3
  | [a, b, c] => (digitChars (bytesValue a b c 0)).take 4
  | a :: b :: c :: d :: bs =>
    (if bytesValue a b c d = 0 then [0x7A#8] else digitChars (bytesValue a b c d)) ++ encodeBody bs

/-- `Encode(b)`, the standard Adobe ASCII85 encoder (41_base85.md R131). -/
def encode85 (bs : List Byte) : List Byte := [0x3C#8, 0x7E#8] ++ encodeBody bs ++ [0x7E#8, 0x3E#8]

/-- `xr8inv(r)`: rotate left by one, then XOR 0x55 (42_xor_rotate.md R154). -/
def xr8inv (r : Byte) : Byte := ((r <<< 1) ||| (r >>> 7)) ^^^ 0x55#8

/-- The seven bytes of a full group's block in byte form (44_bitpack.md R194), from the values `v0` to `v7`. -/
def blockBytes (v0 v1 v2 v3 v4 v5 v6 v7 : Nat) : List Byte :=
  [v0 <<< 1 ||| v1 >>> 6, (v1 &&& 0x3F) <<< 2 ||| v2 >>> 5, (v2 &&& 0x1F) <<< 3 ||| v3 >>> 4, (v3 &&& 0x0F) <<< 4 ||| v4 >>> 3,
    (v4 &&& 0x07) <<< 5 ||| v5 >>> 2, (v5 &&& 0x03) <<< 6 ||| v6 >>> 1, (v6 &&& 0x01) <<< 7 ||| v7].map (BitVec.ofNat 8)

/-- Consecutive one-byte writes from index `k`. -/
def Memory.writeRange (m : Memory) (k : Nat) : List Byte → Memory
  | [] => m
  | b :: bs => (m.write k b).writeRange (k + 1) bs

/-- The net effect of `LOADIN bs` on an idle block (30_encoding.md R79). -/
def State.loadInput (bs : List Byte) (s : State) : State :=
  { s with inMem := s.inMem.writeRange 0 bs, inLen := BitVec.ofNat 32 bs.length }

end Sys2Proof.Machine
end

