-- ==== Sys2Proof/Safety.lean ====
section
/-! DEFINITION. The terms the claims use: what a buffer holds, what a completion writes and leaves alone, the legal states, and the end
of a run. -/

namespace Sys2Proof.Machine

/-- The buffer holds exactly `bs` from index 0: its bytes there, and no determined byte elsewhere (30_encoding.md R82). -/
def Memory.Holds (m : Memory) (bs : List Byte) : Prop := ∀ i, m.read i = bs[i]?

/-- The state's input operand is `x`: IN_LEN is its length and within MAX_IN, and `IN_MEM[0..IN_LEN)` are its bytes, all written
(30_encoding.md R73, 70_reset_and_hazards.md R262). -/
structure State.HasInput (s : State) (x : List Byte) : Prop where
  len : s.inLen.toNat = x.length
  inRange : x.length ≤ s.cfg.maxIn
  bytes : ∀ i, i < x.length → s.inMem.read i = x[i]?

/-- `t` is `s` but for what the host port answered and the draw counter: the block is unchanged. -/
structure SameBlock (s t : State) : Prop where
  cmd : t.cmd = s.cmd
  status : t.status = s.status
  inLen : t.inLen = s.inLen
  outLen : t.outLen = s.outLen
  inMem : t.inMem = s.inMem
  outMem : t.outMem = s.outMem
  phase : t.phase = s.phase
  latch : t.latch = s.latch
  cfg : t.cfg = s.cfg

/-- What no command touches: CMD, IN_LEN, IN_MEM, LATCH (60_exceptions.md R236), and the model's own fields. -/
structure SameButOutput (s t : State) : Prop where
  cmd : t.cmd = s.cmd
  inLen : t.inLen = s.inLen
  inMem : t.inMem = s.inMem
  latch : t.latch = s.latch
  cfg : t.cfg = s.cfg
  remaining : t.remaining = s.remaining
  schedule : t.schedule = s.schedule
  inputs : t.inputs = s.inputs
  responses : t.responses = s.responses
  draws : t.draws = s.draws

/-- `t` is `s` after a successful completion with the result `bs` (30_encoding.md R82). -/
structure Succeeds (s t : State) (bs : List Byte) : Prop where
  outMem : t.outMem.Holds bs
  outLen : t.outLen.toNat = bs.length
  status : t.status = 0x00000002#32
  phase : t.phase = .idle
  frame : SameButOutput s t

/-- `t` is `s` after an error completion with the value `status` of STATUS (60_exceptions.md R236): OUT_LEN is 0 and every byte of
OUT_MEM is unspecified. -/
structure FailsWith (s t : State) (status : Word) : Prop where
  outMem : t.outMem.Holds []
  outLen : t.outLen = 0#32
  status : t.status = status
  phase : t.phase = .idle
  frame : SameButOutput s t

/-- Every error and the value of STATUS it completes with, `(c << 8) | (e << 4) | 0x2`, written out (60_exceptions.md R231, R236;
95_test_vectors.md section 2.6). -/
def errorTable : List (Err × Word) :=
  [(.startMissing, 0x00000112#32), (.endMissing, 0x00000212#32), (.bracket, 0x00000122#32), (.badChar, 0x00000222#32),
    (.zInGroup, 0x00000322#32), (.finalLen1, 0x00000422#32), (.overflow, 0x00000522#32), (.illegal .reservedBits, 0x00000132#32),
    (.illegal .badOp, 0x00000232#32), (.illegal .badSel, 0x00000332#32), (.inRange, 0x00000142#32), (.outRange, 0x00000242#32)]

/-- The values of STATUS after an error completion (60_exceptions.md R231). -/
def errorStatuses : List Word := errorTable.map Prod.snd

/-- The legal states of the block: what 10_state.md R24, R26 to R30 and 60_exceptions.md R231, R236 say of the state at every moment. -/
structure State.Inv (s : State) : Prop where
  /-- The parameters are within their bounds (00_scope.md R6). -/
  cfg_wf : s.cfg.wf = true
  /-- `LATCH = CMD` (R30). -/
  latch_eq_cmd : s.latch = s.cmd
  /-- While a command runs STATUS is BUSY alone (R24, R29; 30_encoding.md R80). -/
  busy_status : s.phase = .busy → s.status = 0x00000001#32
  /-- While idle STATUS is 0, DONE alone, or DONE with the codes of an error of the table (R24, R231). -/
  idle_status : s.phase = .idle → s.status = 0x00000000#32 ∨ s.status = 0x00000002#32 ∨ s.status ∈ errorStatuses
  /-- IN_MEM is in canonical form. -/
  inMem_wf : s.inMem.wf
  /-- IN_MEM has `MAX_IN` bytes (R26). -/
  inMem_bound : ∀ i, s.cfg.maxIn ≤ i → s.inMem.read i = none
  /-- OUT_MEM is in canonical form. -/
  outMem_wf : s.outMem.wf
  /-- While idle exactly the bytes below OUT_LEN are determined (R27). -/
  outMem_determined : s.phase = .idle → ∀ i, (s.outMem.read i).isSome = decide (i < s.outLen.toNat)
  /-- While BUSY every byte of OUT_MEM is unspecified (R27). -/
  outMem_busy : s.phase = .busy → s.outMem.Holds []
  /-- The result fits OUT_MEM (R28; R234). -/
  outLen_bound : s.outLen.toNat ≤ s.cfg.maxOut
  /-- After an error the result is empty (R28, R236). -/
  outLen_error : s.phase = .idle → s.status ≠ 0x00000002#32 → s.outLen = 0#32

/-- `i` is the least index from `k` on at which the bytes `a`, `b` stand side by side: the minimum of a set of 40_extract.md R101. -/
def FirstPair (a b : Byte) (l : List Byte) (k i : Nat) : Prop :=
  (k ≤ i ∧ l[i]? = some a ∧ l[i + 1]? = some b) ∧ ∀ j, k ≤ j → j < i → ¬ (l[j]? = some a ∧ l[j + 1]? = some b)

/-- The bytes `a`, `b` stand side by side at no index from `k` on: a set of 40_extract.md R101 is empty. -/
def NoPair (a b : Byte) (l : List Byte) (k : Nat) : Prop := ∀ j, k ≤ j → ¬ (l[j]? = some a ∧ l[j + 1]? = some b)

/-- The address of an access. -/
def accessAddr : Access → Nat
  | .read addr _ => addr
  | .write addr _ _ => addr

/-- The host accesses the block accepts (20_memory.md R52): a 4-byte read of a register, a 4-byte write of CMD or IN_LEN, a 1-byte
read of a buffer, a 1-byte write of IN_MEM. -/
def Accepted (c : Config) : Access → Prop
  | .read addr n =>
    (n = 4 ∧ (addr = c.base + 0x000000 ∨ addr = c.base + 0x000004 ∨ addr = c.base + 0x000008 ∨ addr = c.base + 0x00000C)) ∨
    (n = 1 ∧ ((c.base + 0x100000 ≤ addr ∧ addr < c.base + 0x100000 + c.maxIn) ∨
      (c.base + 0x200000 ≤ addr ∧ addr < c.base + 0x200000 + c.maxOut)))
  | .write addr n _ =>
    (n = 4 ∧ (addr = c.base + 0x000000 ∨ addr = c.base + 0x000008)) ∨
    (n = 1 ∧ c.base + 0x100000 ≤ addr ∧ addr < c.base + 0x100000 + c.maxIn)

/-- The running command cannot fault: its word is illegal, or IN_LEN is above MAX_IN, or every byte of its input is written
(60_exceptions.md R238). -/
def State.NoUnwritten (s : State) : Prop :=
  (∃ c, decode s.latch = .error c) ∨ s.cfg.maxIn < s.inLen.toNat ∨ ∀ i, i < s.inLen.toNat → (s.inMem.read i).isSome

/-- The end of a run: the script's last line has been performed and the block is idle (70_reset_and_hazards.md R271). -/
def State.Ended (s : State) : Prop := s.inputs = [] ∧ s.phase = .idle

/-- The bus errors returned so far (70_reset_and_hazards.md R271). -/
def State.busErrors (s : State) : Nat := s.responses.count .busError

end Sys2Proof.Machine
end

