-- ==== Sys2Proof/Certificates/Slice0/Obligations.lean ====
section
/-! DEFINITION. The statements for the provers, one `def Obligations.<Name> : Prop` each, in the order of OBLIGATIONS.json. -/

open Sys2Proof Sys2Proof.Machine Host

/-! ### The command word -/

/-- 30_encoding.md R74: exactly eight words are legal, and each stands for its command. -/
def Obligations.LegalWordsAreExactlyEight : Prop :=
  ∀ (w : Word) (i : Instr), decode w = .ok i ↔ (w, i) ∈
    [(0x00000001#32, Instr.extract), (0x00000002#32, .b85dec), (0x00000003#32, .xorrot), (0x00000004#32, .parity),
      (0x00000005#32, .pack), (0x00000006#32, .layerNone), (0x00000016#32, .layerXor), (0x00000026#32, .layerParpack)]

/-- 30_encoding.md R70 to R73: the decoder and the encoder are inverse to each other, in both directions. -/
def Obligations.DecodeEncodeAgree : Prop :=
  (∀ i : Instr, decode (encode i) = .ok i) ∧ ∀ (w : Word) (i : Instr), decode w = .ok i → encode i = w

/-- 30_encoding.md R75: the first check that fails names the cause. -/
def Obligations.IllegalWordClassification : Prop :=
  ∀ w : Word,
    (decode w = .error .reservedBits ↔ w.toNat / 64 ≠ 0) ∧
    (decode w = .error .badOp ↔ w.toNat / 64 = 0 ∧ (w.toNat % 16 = 0 ∨ 7 ≤ w.toNat % 16)) ∧
    (decode w = .error .badSel ↔ w.toNat / 64 = 0 ∧
      ((1 ≤ w.toNat % 16 ∧ w.toNat % 16 ≤ 5 ∧ w.toNat / 16 % 4 ≠ 0) ∨ (w.toNat % 16 = 6 ∧ w.toNat / 16 % 4 = 3)))

/-- The words of three commands written out bit by bit from 30_encoding.md R70 to R72. -/
def Obligations.WrittenOutWordsDecode : Prop :=
  decode 0b00000000000000000000000000_00_0001#32 = .ok .extract ∧
  decode 0b00000000000000000000000000_00_0101#32 = .ok .pack ∧
  decode 0b00000000000000000000000000_10_0110#32 = .ok .layerParpack ∧
  decode 0b00000000000000000000000000_11_0110#32 = .error .badSel

/-! ### The step -/

/-- When LATENCY is over, a step is `exec` of the command that LATCH decodes to, with nothing around it; and `withFetchWord` makes the
next step run its word. That a program's word is placed so is the model's choice (log 7). -/
def Obligations.StepRunsLatchedCommand : Prop :=
  (∀ (s : State) (i : Instr), s.phase = .busy → s.remaining = 0 → decode s.latch = .ok i → step s = exec i s) ∧
  (∀ (s : State) (w : Word) (i : Instr), decode w = .ok i →
    (s.withFetchWord 32 w.toNat).latch = w ∧ step (s.withFetchWord 32 w.toNat) = exec i (s.withFetchWord 32 w.toNat))

/-- 30_encoding.md R75, 60_exceptions.md R232: an illegal word completes with ILLEGAL_COMMAND and the cause of the first check that
fails, reading no input: whatever IN_LEN and IN_MEM hold. -/
def Obligations.IllegalWordsCompleteWithTheirCause : Prop :=
  ∀ s : State, s.phase = .busy → s.remaining = 0 →
    (s.latch.toNat / 64 ≠ 0 → ∃ t, step s = .next t ∧ FailsWith s t 0x00000132#32) ∧
    (s.latch.toNat / 64 = 0 → (s.latch.toNat % 16 = 0 ∨ 7 ≤ s.latch.toNat % 16) →
      ∃ t, step s = .next t ∧ FailsWith s t 0x00000232#32) ∧
    (s.latch.toNat / 64 = 0 → 1 ≤ s.latch.toNat % 16 → s.latch.toNat % 16 ≤ 5 → s.latch.toNat / 16 % 4 ≠ 0 →
      ∃ t, step s = .next t ∧ FailsWith s t 0x00000332#32) ∧
    (s.latch.toNat / 64 = 0 → s.latch.toNat % 16 = 6 → s.latch.toNat / 16 % 4 = 3 →
      ∃ t, step s = .next t ∧ FailsWith s t 0x00000332#32)

/-- 30_encoding.md R81, R82, 60_exceptions.md R236: the core's step is the spec's `Execute`, transcribed line by line, and then
completion with what it returned. -/
def Obligations.CompletionRefinesExecute : Prop :=
  ∀ s : State, s.phase = .busy → s.remaining = 0 →
    match executeRef s.cfg s.latch.toNat s.inLen.toNat s.inMem with
    | none => step s = .fault .unwrittenInput
    | some (.ok bs) => step s = .next (s.completeOk bs) ∧ (s.cfg.wf = true → Succeeds s (s.completeOk bs) bs)
    | some (.error e) => ∃ t v, (e, v) ∈ errorTable ∧ v = BitVec.ofNat 32 (e.cause.toNat * 256 + e.code.toNat * 16 + 2) ∧
        step s = .next t ∧ FailsWith s t v

/-- 30_encoding.md R80: a write of CMD while IDLE issues the command in one step; OUT_LEN and OUT_MEM are unspecified to the host from
then on; the same write while BUSY is ignored. The model's choices in it: the command's LATENCY is the next of the schedule (log 2), the write is
a line of the script and its answer is recorded (log 3), and a read of OUT_LEN gives the draw at the counter (log 4). -/
def Obligations.CmdWriteIssues : Prop :=
  ∀ (s : State) (w : Word), s.cfg.wf = true →
    (s.phase = .idle → ∀ ls, s.inputs = .access (.write (s.cfg.base + 0x000000) 4 w.toNat) :: ls →
      ∃ t, step s = .next t ∧ t.cmd = w ∧ t.latch = w ∧ t.status = 0x00000001#32 ∧ t.phase = .busy ∧ t.outMem.Holds [] ∧
        readTarget .outLen t = (.word (Config.drawWord t.draws), t.draws + 1) ∧ t.inLen = s.inLen ∧ t.inMem = s.inMem ∧
        t.remaining = s.schedule.headD 0 ∧ t.schedule = s.schedule.tail ∧
        t.cfg = s.cfg ∧ t.inputs = ls ∧ t.responses = .written :: s.responses ∧ t.draws = s.draws) ∧
    (s.phase = .busy →
      performAccess (.write (s.cfg.base + 0x000000) 4 w.toNat) s = { s with responses := .written :: s.responses })

/-- 10_state.md R30, 70_reset_and_hazards.md R265: while a command runs, a host-port step that is no reset changes none of CMD, LATCH, STATUS,
IN_LEN, IN_MEM, OUT_LEN, OUT_MEM or PHASE, and one step of LATENCY passes (the
count is the model's, log 2). -/
def Obligations.WaitingChangesNothing : Prop :=
  ∀ s : State, s.phase = .busy → s.remaining ≠ 0 → (∀ ls, s.inputs ≠ .reset :: ls) →
    ∃ t, step s = .next t ∧ SameBlock s t ∧ t.remaining = s.remaining - 1 ∧ t.schedule = s.schedule

/-- 10_state.md R30 "A model may therefore compute a command's result as one function of the state at issue": whatever the host does during
LATENCY (short of reset), the outcome is that of completing at once. LATENCY as a count of steps is the model's choice (log 2). -/
def Obligations.ResultIndependentOfLatency : Prop :=
  ∀ s : State, s.phase = .busy → .reset ∉ s.inputs →
    match Core.run core (s.remaining + 1) s with
    | .next t => ∃ u, coreStep s = .next u ∧ SameBlock u t
    | .fault f => coreStep s = .fault f
    | .refused _ => False

/-- 30_encoding.md R82 "Completion is always reached", 70_reset_and_hazards.md R270: an issued command whose input is written completes within
its LATENCY, whatever the host does short of reset. LATENCY as a count of steps is the model's choice (log 2). -/
def Obligations.IssuedCommandCompletes : Prop :=
  ∀ s : State, s.phase = .busy → .reset ∉ s.inputs → s.NoUnwritten →
    ∃ t, Core.run core (s.remaining + 1) s = .next t ∧ t.phase = .idle ∧ statusDone t.status = true ∧ statusBusy t.status = false

/-! ### Reset -/

/-- 10_state.md R33: the state after reset. -/
def Obligations.ResetState : Prop :=
  State.reset.cmd = 0x00000000#32 ∧ State.reset.status = 0x00000000#32 ∧ State.reset.inLen = 0x00000000#32 ∧
  State.reset.outLen = 0x00000000#32 ∧ State.reset.phase = .idle ∧ State.reset.latch = 0x00000000#32 ∧
  (∀ i, State.reset.inMem.read i = none) ∧ (∀ i, State.reset.outMem.read i = none)

/-- 70_reset_and_hazards.md R260: the reset input sets every piece of the block's state, in one step, and abandons a running command. It takes its
turn as a line of the script, and where no step of LATENCY is left the completion comes first: the model's choice (log 8). -/
def Obligations.ResetInputResetsTheBlock : Prop :=
  ∀ (s : State) (ls : List Input), s.inputs = .reset :: ls → (s.phase = .busy → s.remaining ≠ 0) →
    ∃ t, step s = .next t ∧ t.cmd = 0x00000000#32 ∧ t.status = 0x00000000#32 ∧ t.inLen = 0x00000000#32 ∧
      t.outLen = 0x00000000#32 ∧ t.phase = .idle ∧ t.latch = 0x00000000#32 ∧ t.inMem.Holds [] ∧ t.outMem.Holds [] ∧
      t.cfg = s.cfg ∧ t.inputs = ls ∧ t.responses = s.responses

/-- 70_reset_and_hazards.md R263: every command on the empty input. -/
def Obligations.EmptyInputResults : Prop :=
  ∀ s : State, s.inLen = 0#32 →
    (∃ t, exec .extract s = .next t ∧ FailsWith s t 0x00000112#32) ∧
    (∃ t, exec .layerNone s = .next t ∧ FailsWith s t 0x00000112#32) ∧
    (∃ t, exec .layerXor s = .next t ∧ FailsWith s t 0x00000112#32) ∧
    (∃ t, exec .layerParpack s = .next t ∧ FailsWith s t 0x00000112#32) ∧
    (∃ t, exec .b85dec s = .next t ∧ FailsWith s t 0x00000122#32) ∧
    (∃ t, exec .xorrot s = .next t ∧ Succeeds s t []) ∧
    (∃ t, exec .parity s = .next t ∧ Succeeds s t []) ∧
    (∃ t, exec .pack s = .next t ∧ Succeeds s t [])

/-! ### The host port -/

/-- 20_memory.md R52, 60_exceptions.md R239: the block accepts exactly the listed accesses; every other one in its window is a bus error and
changes nothing but the host port's answer. -/
def Obligations.BusErrorsAreExactlyTheRest : Prop :=
  ∀ (s : State) (a : Access), s.cfg.wf = true →
    (Accepted s.cfg a → (performAccess a s).responses.head? ≠ some .busError) ∧
    (¬ Accepted s.cfg a → s.cfg.base ≤ accessAddr a → accessAddr a < s.cfg.base + 0x400000 →
      performAccess a s = { s with responses := .busError :: s.responses })

/-- The model's choice (log 6), where the spec says nothing: an access outside the block's window is a bus error too. -/
def Obligations.OutsideTheWindowIsABusError : Prop :=
  ∀ (s : State) (a : Access), accessAddr a < s.cfg.base ∨ s.cfg.base + 0x400000 ≤ accessAddr a →
    performAccess a s = { s with responses := .busError :: s.responses }

/-- 20_memory.md R53, 10_state.md R26 to R28, 70_reset_and_hazards.md R266: what each accepted read answers, and that it changes nothing else.
The model's choices in it: a draw is the free value at the draw counter, which advances by one on a draw and stays on every other read (log 4),
and the answer is recorded (log 3). -/
def Obligations.HostReadsReturn : Prop :=
  ∀ s : State, s.cfg.wf = true →
    performAccess (.read (s.cfg.base + 0x000000) 4) s = { s with responses := .word s.cmd :: s.responses } ∧
    performAccess (.read (s.cfg.base + 0x000004) 4) s = { s with responses := .word s.status :: s.responses } ∧
    performAccess (.read (s.cfg.base + 0x000008) 4) s = { s with responses := .word s.inLen :: s.responses } ∧
    (s.phase = .idle →
      performAccess (.read (s.cfg.base + 0x00000C) 4) s = { s with responses := .word s.outLen :: s.responses }) ∧
    (s.phase = .busy →
      performAccess (.read (s.cfg.base + 0x00000C) 4) s =
        { s with responses := .word (Config.drawWord s.draws) :: s.responses, draws := s.draws + 1 }) ∧
    (∀ i b, i < s.cfg.maxIn → s.inMem.read i = some b →
      performAccess (.read (s.cfg.base + 0x100000 + i) 1) s = { s with responses := .byte b :: s.responses }) ∧
    (∀ i, i < s.cfg.maxIn → s.inMem.read i = none →
      performAccess (.read (s.cfg.base + 0x100000 + i) 1) s =
        { s with responses := .byte (Config.drawByte s.draws) :: s.responses, draws := s.draws + 1 }) ∧
    (∀ i b, i < s.cfg.maxOut → s.phase = .idle → i < s.outLen.toNat → s.outMem.read i = some b →
      performAccess (.read (s.cfg.base + 0x200000 + i) 1) s = { s with responses := .byte b :: s.responses }) ∧
    (∀ i, i < s.cfg.maxOut → (s.phase = .busy ∨ s.outLen.toNat ≤ i) →
      performAccess (.read (s.cfg.base + 0x200000 + i) 1) s =
        { s with responses := .byte (Config.drawByte s.draws) :: s.responses, draws := s.draws + 1 })

/-- 20_memory.md R56: a read, of whatever address and width and in whatever phase, has no side effect on the block, on the script or on
the running command. -/
def Obligations.ReadsHaveNoSideEffect : Prop :=
  ∀ (s : State) (addr n : Nat), SameBlock s (performAccess (.read addr n) s) ∧
    (performAccess (.read addr n) s).inputs = s.inputs ∧ (performAccess (.read addr n) s).remaining = s.remaining ∧
    (performAccess (.read addr n) s).schedule = s.schedule ∧ (performAccess (.read addr n) s).responses.tail = s.responses

/-- 70_reset_and_hazards.md R265: while BUSY a write to CMD, IN_LEN or an IN_MEM byte has no effect and returns no error, and writes to STATUS,
OUT_LEN and OUT_MEM are bus errors at all times. -/
def Obligations.BusyWritesAreIgnored : Prop :=
  ∀ (s : State) (v : Nat), s.cfg.wf = true →
    (s.phase = .busy →
      performAccess (.write (s.cfg.base + 0x000000) 4 v) s = { s with responses := .written :: s.responses } ∧
      performAccess (.write (s.cfg.base + 0x000008) 4 v) s = { s with responses := .written :: s.responses } ∧
      ∀ i, i < s.cfg.maxIn →
        performAccess (.write (s.cfg.base + 0x100000 + i) 1 v) s = { s with responses := .written :: s.responses }) ∧
    performAccess (.write (s.cfg.base + 0x000004) 4 v) s = { s with responses := .busError :: s.responses } ∧
    performAccess (.write (s.cfg.base + 0x00000C) 4 v) s = { s with responses := .busError :: s.responses } ∧
    ∀ i, i < s.cfg.maxOut →
      performAccess (.write (s.cfg.base + 0x200000 + i) 1 v) s = { s with responses := .busError :: s.responses }

/-- 10_state.md R25, R26, 20_memory.md R53: while IDLE a write of IN_LEN stores any 32-bit value and a write of `IN_MEM[i]` stores the byte there
and nowhere else; nothing else changes. -/
def Obligations.IdleWritesStore : Prop :=
  ∀ s : State, s.cfg.wf = true → s.phase = .idle →
    (∀ v : Word, performAccess (.write (s.cfg.base + 0x000008) 4 v.toNat) s =
      { s with inLen := v, responses := .written :: s.responses }) ∧
    (∀ (i : Nat) (b : Byte), i < s.cfg.maxIn → ∃ t, performAccess (.write (s.cfg.base + 0x100000 + i) 1 b.toNat) s = t ∧
      t.inMem.read i = some b ∧ (∀ j, j ≠ i → t.inMem.read j = s.inMem.read j) ∧
      { t with inMem := s.inMem, responses := s.responses } = s ∧ t.responses = .written :: s.responses)

/-! ### The commands: results, frames, completion -/

/-- 42_xor_rotate.md R151, R153: XORROT completes with every byte XOR 0x55, rotated right by one. -/
def Obligations.XorrotCompletes : Prop :=
  ∀ (s : State) (x : List Byte), s.cfg.wf = true → s.HasInput x → x.length ≤ s.cfg.maxOut →
    ∃ t, exec .xorrot s = .next t ∧
      Succeeds s t (x.map fun b => ((b ^^^ 0x55#8) >>> 1) ||| (((b ^^^ 0x55#8) &&& 1#8) <<< 7))

/-- 42_xor_rotate.md R152: XorRotate works on the lanes independently; a lane bit by bit, and as a rotation followed by XOR 0xAA. -/
def Obligations.XorRotateLanes : Prop :=
  (∀ s : List Byte, (xorRotate s).length = s.length ∧ ∀ (k : Nat) (h : k < s.length) (h' : k < (xorRotate s).length),
    (xorRotate s)[k] = xr8 s[k]) ∧
  ∀ b : Byte, (∀ i, i ≤ 6 → (xr8 b).getLsbD i = (b.getLsbD (i + 1) ^^ decide ((i + 1) % 2 = 0))) ∧
    (xr8 b).getLsbD 7 = (b.getLsbD 0 ^^ true) ∧ xr8 b = ((b >>> 1) ||| ((b &&& 1#8) <<< 7)) ^^^ 0xAA#8

/-- 42_xor_rotate.md R154: `xr8` and `xr8inv` are inverse to each other. -/
def Obligations.XorRotateInverse : Prop :=
  ∀ b : Byte, xr8inv (xr8 b) = b ∧ xr8 (xr8inv b) = b

/-- 43_parity.md R171, R173: PARITY completes with the valid bytes in order, where a byte is valid if its bit 0 is the parity of its bits
7 to 1; a result without bytes is a success. -/
def Obligations.ParityCompletes : Prop :=
  ∀ (s : State) (x : List Byte), s.cfg.wf = true → s.HasInput x →
    (x.filter fun b => decide ((List.range 7).countP (fun i => b.getLsbD (i + 1)) % 2 = b.toNat % 2)).length ≤ s.cfg.maxOut →
    ∃ t, exec .parity s = .next t ∧
      Succeeds s t (x.filter fun b => decide ((List.range 7).countP (fun i => b.getLsbD (i + 1)) % 2 = b.toNat % 2))

/-- 43_parity.md R172: a byte is valid if and only if its popcount is even, and exactly 128 bytes are valid. -/
def Obligations.ValidMeansEvenPopcount : Prop :=
  (∀ b : Byte, parityValid b = true ↔ popcount b % 2 = 0) ∧
  (List.range 256).countP (fun n => parityValid (BitVec.ofNat 8 n)) = 128

/-- 43_parity.md R174: the laws of ParityFilter. -/
def Obligations.ParityFilterLaws : Prop :=
  ∀ s t : List Byte, (parityFilter s).length ≤ s.length ∧ parityFilter (parityFilter s) = parityFilter s ∧
    parityFilter (s ++ t) = parityFilter s ++ parityFilter t ∧ ∀ b, b ∈ parityFilter s → parityValid b = true

/-- 44_bitpack.md R191 to R194: PACK completes with `7 * ceil(n / 8)` bytes, and every bit of them is the bit of an input byte that R194's bit
map names, or 0 where the group is short. -/
def Obligations.PackCompletes : Prop :=
  ∀ (s : State) (x : List Byte), s.cfg.wf = true → s.HasInput x → 7 * ((x.length + 7) / 8) ≤ s.cfg.maxOut →
    ∃ t bs, exec .pack s = .next t ∧ Succeeds s t bs ∧ bs.length = 7 * ((x.length + 7) / 8) ∧
      ∀ q p, q < (x.length + 7) / 8 → p < 56 →
        (bs.getD (7 * q + (6 - p / 8)) 0#8).getLsbD (p % 8) = (x.getD (8 * q + (7 - p / 7)) 0#8).getLsbD (p % 7 + 1)

/-- 44_bitpack.md R194, the byte form of a full group. -/
def Obligations.FullGroupByteForm : Prop :=
  ∀ b0 b1 b2 b3 b4 b5 b6 b7 : Byte, bitPack [b0, b1, b2, b3, b4, b5, b6, b7] =
    blockBytes (b0.toNat / 2) (b1.toNat / 2) (b2.toNat / 2) (b3.toNat / 2) (b4.toNat / 2) (b5.toNat / 2) (b6.toNat / 2)
      (b7.toNat / 2)

/-- 44_bitpack.md R195: the laws of BitPack. -/
def Obligations.BitPackLaws : Prop :=
  (∀ s : List Byte, (bitPack s).length = 7 * ((s.length + 7) / 8)) ∧
  (∀ s t : List Byte, s.length % 8 = 0 → bitPack (s ++ t) = bitPack s ++ bitPack t) ∧
  (∀ s s' : List Byte, s.map (fun b => b.toNat / 2) = s'.map (fun b => b.toNat / 2) → bitPack s = bitPack s') ∧
  (∀ s s' : List Byte, s.length = 8 → s'.length = 8 → bitPack s = bitPack s' → s.map (fun b => b.toNat / 2) = s'.map (fun b => b.toNat / 2)) ∧
  (∀ o : List Byte, o.length = 7 → ∃ s : List Byte, s.length = 8 ∧ bitPack s = o)

/-- 44_bitpack.md R192: after the full groups, a short final group of `r` bytes packs to one block of 7 bytes whose low `7 * (8 - r)` bits are
zero; an empty input packs to nothing. -/
def Obligations.ShortGroupLowBitsZero : Prop :=
  bitPack [] = [] ∧ ∀ s : List Byte, (bitPack s).length = 7 * ((s.length + 7) / 8) ∧
    (1 ≤ s.length % 8 → ∃ acc, (bitPack s).drop (7 * (s.length / 8)) = beRef acc 7 ∧ acc < 2 ^ 56 ∧
      acc % 2 ^ (7 * (8 - s.length % 8)) = 0)

/-- 40_extract.md R101: what EXTRACT answers on every carrier, by the least start marker and the least end marker at or after it. -/
def Obligations.ExtractCompletes : Prop :=
  ∀ (s : State) (c : List Byte), s.cfg.wf = true → s.HasInput c →
    (NoPair 0x3C#8 0x7E#8 c 0 → ∃ t, exec .extract s = .next t ∧ FailsWith s t 0x00000112#32) ∧
    (∀ i, FirstPair 0x3C#8 0x7E#8 c 0 i → NoPair 0x7E#8 0x3E#8 c i →
      ∃ t, exec .extract s = .next t ∧ FailsWith s t 0x00000212#32) ∧
    (∀ i j, FirstPair 0x3C#8 0x7E#8 c 0 i → FirstPair 0x7E#8 0x3E#8 c i j →
      let p := ((c.drop i).take (j + 2 - i)).filter fun b => decide (b ∉ [0x09#8, 0x0A#8, 0x0B#8, 0x0C#8, 0x0D#8, 0x20#8])
      (p.length ≤ s.cfg.maxOut → ∃ t, exec .extract s = .next t ∧ Succeeds s t p) ∧
      (s.cfg.maxOut < p.length → ∃ t, exec .extract s = .next t ∧ FailsWith s t 0x00000242#32))

/-- 40_extract.md R105: under its two conditions the extractor returns exactly the payload, stripped, whatever surrounds it. -/
def Obligations.ExtractReturnsThePayload : Prop :=
  ∀ pre x post : List Byte, NoPair 0x3C#8 0x7E#8 pre 0 → NoPair 0x7E#8 0x3E#8 (0x7E#8 :: x) 0 →
    extract (pre ++ [0x3C#8, 0x7E#8] ++ x ++ [0x7E#8, 0x3E#8] ++ post) =
      .ok ([0x3C#8, 0x7E#8] ++ x.filter (fun b => !isWhitespace b) ++ [0x7E#8, 0x3E#8])

/-- 40_extract.md R102, R104: a payload begins with the start marker, ends with the end marker, is no longer than its carrier, and is at
least 4 bytes long but for the overlap case of 3. -/
def Obligations.ExtractedPayloadShape : Prop :=
  ∀ c p : List Byte, extract c = .ok p →
    p.length ≤ c.length ∧ p.take 2 = [0x3C#8, 0x7E#8] ∧ p.drop (p.length - 2) = [0x7E#8, 0x3E#8] ∧
    (p = [0x3C#8, 0x7E#8, 0x3E#8] ∨ 4 ≤ p.length) ∧ ∀ b, b ∈ p → b ∉ [0x09#8, 0x0A#8, 0x0B#8, 0x0C#8, 0x0D#8, 0x20#8]

/-- 41_base85.md R121, R130: B85DEC is the spec's `B85Decode`, transcribed line by line, with the capacity check of the result and, for each of its
five errors, the value of STATUS written out (60_exceptions.md R231, R236). -/
def Obligations.B85decCompletes : Prop :=
  ∀ (s : State) (x : List Byte), s.cfg.wf = true → s.HasInput x →
    match b85DecodeRef x with
    | .ok bs =>
      (bs.length ≤ s.cfg.maxOut → ∃ t, exec .b85dec s = .next t ∧ Succeeds s t bs) ∧
      (s.cfg.maxOut < bs.length → ∃ t, exec .b85dec s = .next t ∧ FailsWith s t 0x00000242#32)
    | .error e => ∃ t v, (e, v) ∈ [(.bracket, 0x00000122#32), (.badChar, 0x00000222#32), (.zInGroup, 0x00000322#32),
        (.finalLen1, 0x00000422#32), (.overflow, 0x00000522#32)] ∧ exec .b85dec s = .next t ∧ FailsWith s t v

/-- 41_base85.md R126, R127, R129: the one error a payload gives, in the order of R129. First the brackets. Then, after a part of the body that
the scan passes with `g` the digits pending and `out` the bytes so far, the next character decides whatever follows it; at the end of the body the
final group decides. -/
def Obligations.DecodeErrorOrder : Prop :=
  (∀ p : List Byte, p.length < 4 ∨ p.take 2 ≠ [0x3C#8, 0x7E#8] ∨ p.drop (p.length - 2) ≠ [0x7E#8, 0x3E#8] →
    b85Decode p = .error .bracket) ∧
  ∀ (pre post : List Byte) (c : Byte) (out : List Byte) (g : List Nat), decodeLoop ([], []) pre = .ok (out, g) →
    let p := [0x3C#8, 0x7E#8] ++ pre ++ c :: post ++ [0x7E#8, 0x3E#8]
    let q := [0x3C#8, 0x7E#8] ++ pre ++ [0x7E#8, 0x3E#8]
    let v := groupValueRef (g ++ List.replicate (5 - g.length) 84)
    g.length ≤ 4 ∧
    ((c.toNat < 33 ∨ (117 < c.toNat ∧ c.toNat ≠ 122)) → b85Decode p = .error .badChar) ∧
    (c.toNat = 122 → 1 ≤ g.length → b85Decode p = .error .zInGroup) ∧
    (33 ≤ c.toNat → c.toNat ≤ 117 → g.length = 4 → 0xFFFFFFFF < groupValueRef (g ++ [c.toNat - 33]) →
      b85Decode p = .error .overflow) ∧
    (g.length = 0 → b85Decode q = .ok out) ∧
    (g.length = 1 → b85Decode q = .error .finalLen1) ∧
    (2 ≤ g.length → 0xFFFFFFFF < v → b85Decode q = .error .overflow) ∧
    (2 ≤ g.length → v ≤ 0xFFFFFFFF → b85Decode q = .ok (out ++ (beRef v 4).take (g.length - 1)))

/-- 41_base85.md R131: the decoder inverts the standard encoder on every byte sequence; the encoder does not invert the decoder (`!!!!!`
and `z`). -/
def Obligations.Base85RoundTrip : Prop :=
  (∀ b : List Byte, b85Decode (encode85 b) = .ok b) ∧
  b85Decode [0x3C#8, 0x7E#8, 0x21#8, 0x21#8, 0x21#8, 0x21#8, 0x21#8, 0x7E#8, 0x3E#8] = .ok [0x00#8, 0x00#8, 0x00#8, 0x00#8] ∧
  encode85 [0x00#8, 0x00#8, 0x00#8, 0x00#8] = [0x3C#8, 0x7E#8, 0x7A#8, 0x7E#8, 0x3E#8]

/-- 41_base85.md R128: the length of the decoded buffer, from the number of digits and of `z` in the body. -/
def Obligations.DecodedLength : Prop :=
  ∀ body out : List Byte, b85Decode ([0x3C#8, 0x7E#8] ++ body ++ [0x7E#8, 0x3E#8]) = .ok out →
    let digits := body.countP fun c => decide (33 ≤ c.toNat ∧ c.toNat ≤ 117)
    let zs := body.countP fun c => decide (c.toNat = 122)
    out.length = 4 * (digits / 5) + 4 * zs + (digits % 5 - 1) ∧ out.length ≤ 4 * body.length ∧
      (out.length = 4 * body.length ↔ ∀ c, c ∈ body → c.toNat = 122)

/-- 45_layer.md R211 to R214: each LAYER command is the spec's `Layer`, transcribed line by line, with the capacity check of the result and, for
each of its errors, the value of STATUS written out (60_exceptions.md R231, R236). -/
def Obligations.LayerCommandsComplete : Prop :=
  ∀ (s : State) (x : List Byte), s.cfg.wf = true → s.HasInput x →
    ∀ p, p ∈ [(Instr.layerNone, 0), (.layerXor, 1), (.layerParpack, 2)] →
    match layerRef s.cfg.maxOut p.2 x with
    | .ok bs =>
      (bs.length ≤ s.cfg.maxOut → ∃ t, exec p.1 s = .next t ∧ Succeeds s t bs) ∧
      (s.cfg.maxOut < bs.length → ∃ t, exec p.1 s = .next t ∧ FailsWith s t 0x00000242#32)
    | .error e => ∃ t v, (e, v) ∈ [(.startMissing, 0x00000112#32), (.endMissing, 0x00000212#32), (.bracket, 0x00000122#32),
        (.badChar, 0x00000222#32), (.zInGroup, 0x00000322#32), (.finalLen1, 0x00000422#32), (.overflow, 0x00000522#32),
        (.outRange, 0x00000242#32)] ∧ exec p.1 s = .next t ∧ FailsWith s t v

/-- The end-to-end claim of 45_layer.md R212 to R214 with 41_base85.md R131: whatever surrounds it and wherever whitespace stands in it, a carrier
whose payload encodes the bytes `b` decodes to `b`, to `b` transformed, and to `b` filtered and packed. -/
def Obligations.LayerDecodesCarriers : Prop :=
  ∀ (s : State) (pre x post b : List Byte), s.cfg.wf = true →
    s.HasInput (pre ++ [0x3C#8, 0x7E#8] ++ x ++ [0x7E#8, 0x3E#8] ++ post) →
    NoPair 0x3C#8 0x7E#8 pre 0 → x.head? ≠ some 0x3E#8 → x.filter (fun c => !isWhitespace c) = encodeBody b →
    (encodeBody b).length + 4 ≤ s.cfg.maxOut → b.length ≤ s.cfg.maxOut →
    (∃ t, exec .layerNone s = .next t ∧ Succeeds s t b) ∧
    (∃ t, exec .layerXor s = .next t ∧ Succeeds s t (b.map xr8)) ∧
    ((bitPack (parityFilter b)).length ≤ s.cfg.maxOut →
      ∃ t, exec .layerParpack s = .next t ∧ Succeeds s t (bitPack (parityFilter b)))

/-- 45_layer.md R211, R215, program P5 of 95_test_vectors.md: a LAYER command that succeeds answers what its stages answer when the host runs
them one after another and copies each result to the input, where the results fit IN_MEM. -/
def Obligations.LayerEqualsStagesChained : Prop :=
  ∀ (s t : State) (r : List Byte), s.cfg.wf = true → s.cfg.maxOut ≤ s.cfg.maxIn →
    (exec .layerXor s = .next t → Succeeds s t r → ∃ p d t1 t2 t3,
      exec .extract s = .next t1 ∧ Succeeds s t1 p ∧
      exec .b85dec (t1.loadInput p) = .next t2 ∧ Succeeds (t1.loadInput p) t2 d ∧
      exec .xorrot (t2.loadInput d) = .next t3 ∧ Succeeds (t2.loadInput d) t3 r) ∧
    (exec .layerNone s = .next t → Succeeds s t r → ∃ p t1 t2,
      exec .extract s = .next t1 ∧ Succeeds s t1 p ∧
      exec .b85dec (t1.loadInput p) = .next t2 ∧ Succeeds (t1.loadInput p) t2 r) ∧
    (exec .layerParpack s = .next t → Succeeds s t r → ∃ p d f t1 t2 t3 t4,
      exec .extract s = .next t1 ∧ Succeeds s t1 p ∧
      exec .b85dec (t1.loadInput p) = .next t2 ∧ Succeeds (t1.loadInput p) t2 d ∧
      exec .parity (t2.loadInput d) = .next t3 ∧ Succeeds (t2.loadInput d) t3 f ∧
      exec .pack (t3.loadInput f) = .next t4 ∧ Succeeds (t3.loadInput f) t4 r)

/-- 60_exceptions.md R233: every legal command issued with IN_LEN above MAX_IN, and no input byte read. -/
def Obligations.InRangeErrors : Prop :=
  ∀ (i : Instr) (s : State), s.cfg.maxIn < s.inLen.toNat → ∃ t, exec i s = .next t ∧ FailsWith s t 0x00000142#32

/-- 60_exceptions.md R234: a result, or an intermediate buffer of a LAYER command, longer than MAX_OUT; the check runs only after the stage has
succeeded, so an error of a stage wins. -/
def Obligations.OutRangeErrors : Prop :=
  ∀ (s : State) (x : List Byte), s.HasInput x →
    (∀ i r, unitOf s.cfg.maxOut i x = .ok r → s.cfg.maxOut < r.length →
      ∃ t, exec i s = .next t ∧ FailsWith s t 0x00000242#32) ∧
    (∀ i p, i ∈ [Instr.layerNone, .layerXor, .layerParpack] → extract x = .ok p → s.cfg.maxOut < p.length →
      ∃ t, exec i s = .next t ∧ FailsWith s t 0x00000242#32) ∧
    (∀ i p d, i ∈ [Instr.layerXor, .layerParpack] → extract x = .ok p → p.length ≤ s.cfg.maxOut → b85Decode p = .ok d →
      s.cfg.maxOut < d.length → ∃ t, exec i s = .next t ∧ FailsWith s t 0x00000242#32) ∧
    (∀ i e, unitOf s.cfg.maxOut i x = .error e → ∃ t v, (e, v) ∈ errorTable ∧ exec i s = .next t ∧ FailsWith s t v)

/-- 60_exceptions.md R238: a legal command with IN_LEN within MAX_IN faults if and only if a byte of its input is NONE. -/
def Obligations.UnwrittenInputFaults : Prop :=
  ∀ (i : Instr) (s : State), s.inLen.toNat ≤ s.cfg.maxIn →
    (exec i s = .fault .unwrittenInput ↔ ∃ k, k < s.inLen.toNat ∧ s.inMem.read k = none)

/-- 60_exceptions.md R236, 30_encoding.md R82: the frame of every command. It leaves CMD, IN_LEN, LATCH and every byte of IN_MEM, it ends IDLE with
DONE, and OUT_MEM then holds exactly `OUT_LEN` determined bytes, none after an error. -/
def Obligations.CommandFrame : Prop :=
  ∀ (i : Instr) (s t : State), s.cfg.wf = true → exec i s = .next t →
    SameButOutput s t ∧ t.phase = .idle ∧ (∀ k, (t.outMem.read k).isSome = decide (k < t.outLen.toNat)) ∧
    t.outLen.toNat ≤ s.cfg.maxOut ∧
    (t.status = 0x00000002#32 ∨ (t.outLen = 0#32 ∧ t.status ∈ errorStatuses))

/-- 20_memory.md R57, 60_exceptions.md R237: what a command does depends only on IN_LEN, on `IN_MEM[0..IN_LEN)` and on the parameters; so the
same command on the same input gives the same result and the same error. -/
def Obligations.ResultDependsOnlyOnInput : Prop :=
  ∀ (i : Instr) (s s' : State), s'.cfg = s.cfg → s'.inLen = s.inLen →
    (∀ k, k < s.inLen.toNat → s'.inMem.read k = s.inMem.read k) →
    match exec i s with
    | .next t => ∃ t', exec i s' = .next t' ∧ t'.status = t.status ∧ t'.outLen = t.outLen ∧ t'.outMem = t.outMem
    | .fault f => exec i s' = .fault f
    | .refused r => exec i s' = .refused r

/-! ### Whole-machine rules -/

/-- The state after reset (10_state.md R33) is a legal state; its parameters are the model's choice (log 1). -/
def Obligations.ResetIsLegal : Prop := State.reset.Inv

/-- Every step keeps the legal states: canonical buffers, LATCH = CMD, STATUS one of its legal values and mirroring PHASE, OUT_MEM determined
exactly below OUT_LEN (10_state.md R24, R26 to R30, 60_exceptions.md R231, R236). -/
def Obligations.StepKeepsLegal : Prop := ∀ s t : State, s.Inv → step s = .next t → t.Inv

/-- 10_state.md R24, R29, 60_exceptions.md R231: what the legal states say of STATUS; the last clause is every pair of ERR and CAUSE that is ever
produced. -/
def Obligations.StatusFieldsInLegalStates : Prop :=
  ∀ s : State, s.Inv →
    (statusBusy s.status = true ↔ s.phase = .busy) ∧ ¬ (statusBusy s.status = true ∧ statusDone s.status = true) ∧
    (statusBusy s.status = true → statusErrField s.status = 0#4 ∧ statusCauseField s.status = 0#4) ∧
    statusReserved s.status = 0#22 ∧
    (statusErrField s.status, statusCauseField s.status) ∈
      [(0#4, 0#4), (1#4, 1#4), (1#4, 2#4), (2#4, 1#4), (2#4, 2#4), (2#4, 3#4), (2#4, 4#4), (2#4, 5#4), (3#4, 1#4), (3#4, 2#4),
        (3#4, 3#4), (4#4, 1#4), (4#4, 2#4)]

/-- 10_state.md R31: STATUS changes only by issue, completion and reset. -/
def Obligations.OnlyIssueCompletionResetChangeStatus : Prop :=
  ∀ s t : State, step s = .next t →
    t.status = s.status ∨
    (s.phase = .idle ∧ t.phase = .busy ∧ t.status = 0x00000001#32 ∧ t.latch = t.cmd) ∨
    (s.phase = .busy ∧ s.remaining = 0 ∧ t.phase = .idle ∧ (t.status = 0x00000002#32 ∨ t.status ∈ errorStatuses)) ∨
    (∃ ls, s.inputs = .reset :: ls ∧ t.status = 0x00000000#32 ∧ t.phase = .idle)

/-- 10_state.md R25 to R27: the core never writes IN_MEM, IN_LEN or CMD, the host never writes OUT_MEM or OUT_LEN, no step changes the parameters,
and of IN_MEM a host-port step changes at most the byte its line writes: the byte that the address of a write names, byte `k` for a line of LOADIN,
none for any other line, and none while BUSY. That the stored OUT_LEN stays over an issue, unreadable, is log 5; the script is log 3. -/
def Obligations.WhoWritesWhat : Prop :=
  ∀ s t : State, step s = .next t → t.cfg = s.cfg ∧
    (s.phase = .busy → s.remaining = 0 → t.inMem = s.inMem ∧ t.inLen = s.inLen ∧ t.cmd = s.cmd ∧ t.latch = s.latch ∧
      t.inputs = s.inputs ∧ t.responses = s.responses) ∧
    ((s.phase = .idle ∨ s.remaining ≠ 0) → (∀ ls, s.inputs ≠ .reset :: ls) →
      t.outLen = s.outLen ∧ (t.phase = s.phase → t.outMem = s.outMem) ∧
      (s.phase = .busy → t.inMem = s.inMem) ∧
      (∀ addr n v ls, s.inputs = .access (.write addr n v) :: ls → ∀ j, target s.cfg addr n ≠ some (.inByte j) →
        t.inMem.read j = s.inMem.read j) ∧
      (∀ k b bs ls, s.inputs = .loadIn k (b :: bs) :: ls → ∀ j, j ≠ k → t.inMem.read j = s.inMem.read j) ∧
      ((∀ addr n v ls, s.inputs ≠ .access (.write addr n v) :: ls) → (∀ k b bs ls, s.inputs ≠ .loadIn k (b :: bs) :: ls) →
        t.inMem = s.inMem))

/-! ### Host scripts -/

/-- 30_encoding.md R79: ISSUE is the write of the command's word, and RUN is ISSUE then WAIT. The script as a field of the state is the model's
choice (log 3), here and below. -/
def Obligations.RunIsIssueThenWait : Prop :=
  ∀ (s : State) (i : Instr) (ls : List Input), s.phase = .idle →
    step { s with inputs := .issue i :: ls } =
      step { s with inputs := .access (.write (s.cfg.base + 0x000000) 4 (encode i).toNat) :: ls } ∧
    step { s with inputs := .run i :: ls } = step { s with inputs := .issue i :: .wait :: ls }

/-- 30_encoding.md R79: LOADIN on an idle block writes the bytes one a step from `IN_MEM[0]` on, then IN_LEN, and nothing else of the block. -/
def Obligations.LoadInWritesTheInput : Prop :=
  ∀ (s : State) (bs : List Byte) (ls : List Input), s.cfg.wf = true → s.phase = .idle → bs.length ≤ s.cfg.maxIn →
    s.inputs = .loadIn 0 bs :: ls →
    ∃ t, Core.run core (bs.length + 1) s = .next t ∧ SameBlock (s.loadInput bs) t ∧ t.inputs = ls ∧ t.HasInput bs ∧
      ∀ i, bs.length ≤ i → t.inMem.read i = s.inMem.read i

/-- 30_encoding.md R79, 70_reset_and_hazards.md R264, R270: WAIT straight after an issue ends, with its last read of STATUS showing DONE, whatever LATENCY is
(a count of steps, log 2). -/
def Obligations.WaitEnds : Prop :=
  ∀ (s : State) (ls : List Input), s.cfg.wf = true → s.phase = .busy → s.status = 0x00000001#32 → s.NoUnwritten →
    s.inputs = .wait :: ls →
    ∃ t v, Core.run core (s.remaining + 2) s = .next t ∧ t.phase = .idle ∧ t.inputs = ls ∧ t.status = v ∧
      t.responses.head? = some (.word v) ∧ statusDone v = true ∧ t.busErrors = s.busErrors

/-- 30_encoding.md R79, 45_layer.md R215: CHAIN copies the completed output to the input: `IN_MEM[0..OUT_LEN)` and IN_LEN, and nothing else of the
block. -/
def Obligations.ChainCopiesOutputToInput : Prop :=
  ∀ (s : State) (out : List Byte) (ls : List Input), s.cfg.wf = true → s.phase = .idle → s.outLen.toNat = out.length →
    s.outMem.Holds out → out.length ≤ s.cfg.maxOut → out.length ≤ s.cfg.maxIn → s.inputs = .chain :: ls →
    ∃ t, Core.run core (2 * out.length + 2) s = .next t ∧ SameBlock (s.loadInput out) t ∧ t.inputs = ls ∧ t.HasInput out ∧
      ∀ i, out.length ≤ i → t.inMem.read i = s.inMem.read i

/-- 30_encoding.md R79: READOUT on an idle block answers OUT_LEN and then the bytes of the output in order, and changes nothing of the block. The
script and the record of the answers (newest first) are the model's choice (log 3). -/
def Obligations.ReadOutReturnsTheOutput : Prop :=
  ∀ (s : State) (out : List Byte) (ls : List Input), s.cfg.wf = true → s.phase = .idle → s.outLen.toNat = out.length →
    s.outMem.Holds out → out.length ≤ s.cfg.maxOut → s.inputs = .readOut :: ls →
    ∃ t, Core.run core (out.length + 1) s = .next t ∧ SameBlock s t ∧ t.inputs = ls ∧ t.draws = s.draws ∧
      t.responses = (out.map Response.byte).reverse ++ .word s.outLen :: s.responses

/-! ### The error table -/

/-- 60_exceptions.md R231 with the formula of R236: the value of STATUS after every error of the table, each written out, and no other error. -/
def Obligations.ErrorStatusTable : Prop :=
  ∀ (e : Err) (v : Word), statusErr e = v ↔ (e, v) ∈
    [(.startMissing, 0x00000112#32), (.endMissing, 0x00000212#32), (.bracket, 0x00000122#32), (.badChar, 0x00000222#32),
      (.zInGroup, 0x00000322#32), (.finalLen1, 0x00000422#32), (.overflow, 0x00000522#32), (.illegal .reservedBits, 0x00000132#32),
      (.illegal .badOp, 0x00000232#32), (.illegal .badSel, 0x00000332#32), (.inRange, 0x00000142#32), (.outRange, 0x00000242#32)]
end

