-- ==== Sys2Proof/Laws/Memory.lean ====
section
/-! SUPPORT. Buffers: a read after a write, the canonical form is kept and makes equal buffers equal data, and ranges. -/

namespace Sys2Proof.Machine

namespace Memory

@[simp] theorem read_nil (i : Nat) : Memory.read [] i = none := rfl

theorem read_cons (a : Nat) (b : Byte) (m : Memory) (i : Nat) :
    Memory.read ((a, b) :: m) i = if a = i then some b else Memory.read m i := rfl

/-- A read after a write to the same index gives the value written. -/
@[simp] theorem read_write_same (m : Memory) (i : Nat) (v : Byte) : (m.write i v).read i = some v := by
  induction m with
  | nil => simp [write, read]
  | cons c m ih =>
    obtain ⟨a, b⟩ := c
    simp only [write]
    split
    · simp [read]
    · split
      · simp [read]
      · rw [read_cons, if_neg (by omega), ih]

/-- A write leaves every other index alone. -/
theorem read_write_other (m : Memory) {i j : Nat} (v : Byte) (h : j ≠ i) : (m.write i v).read j = m.read j := by
  induction m with
  | nil => simp [write, read, h.symm, unlisted]
  | cons c m ih =>
    obtain ⟨a, b⟩ := c
    simp only [write]
    split
    · rw [read_cons, if_neg h.symm]
    · split
      · next h' => subst h'; rw [read_cons, if_neg h.symm, read_cons, if_neg h.symm]
      · rw [read_cons, read_cons, ih]

theorem read_write (m : Memory) (i j : Nat) (v : Byte) : (m.write i v).read j = if j = i then some v else m.read j := by
  split
  · next h => subst h; exact read_write_same m j v
  · next h => exact read_write_other m v h

/-- Every entry after a write is the one written or was there before. -/
theorem mem_write (m : Memory) (i : Nat) (v : Byte) (c : Host.Cell) (h : c ∈ m.write i v) : c = (i, v) ∨ c ∈ m := by
  induction m with
  | nil => simpa [write] using h
  | cons d m ih =>
    obtain ⟨a, b⟩ := d
    simp only [write] at h
    split at h
    · simpa using h
    · split at h
      · rcases List.mem_cons.1 h with h | h <;> simp [h]
      · rcases List.mem_cons.1 h with h | h
        · simp [h]
        · rcases ih h with h | h <;> simp [h]

/-- A write keeps the canonical form. -/
theorem write_wf (m : Memory) (i : Nat) (v : Byte) (h : m.wf) : (m.write i v).wf := by
  induction m with
  | nil => simp [write, wf]
  | cons d m ih =>
    obtain ⟨a, b⟩ := d
    have h' := List.pairwise_cons.1 h
    simp only [write]
    split
    · next hlt =>
      refine List.pairwise_cons.2 ⟨fun c hc => ?_, h⟩
      rcases List.mem_cons.1 hc with rfl | hc
      · exact hlt
      · exact Nat.lt_trans hlt (h'.1 c hc)
    · split
      · next he => subst he; exact List.pairwise_cons.2 h'
      · refine List.pairwise_cons.2 ⟨fun c hc => ?_, ih h'.2⟩
        rcases mem_write m i v c hc with rfl | hc
        · show a < i; omega
        · exact h'.1 c hc

theorem read_of_lt (m : Memory) (i : Nat) (h : ∀ c ∈ m, i < c.1) : m.read i = none := by
  induction m with
  | nil => rfl
  | cons d m ih =>
    obtain ⟨a, b⟩ := d
    have : i < a := h (a, b) (by simp)
    rw [read_cons, if_neg (by omega), ih fun c hc => h c (by simp [hc])]

/-- In canonical form, equal reads are equal data. -/
theorem ext_of_wf {m m' : Memory} (h : m.wf) (h' : m'.wf) (hr : ∀ i, m.read i = m'.read i) : m = m' := by
  induction m generalizing m' with
  | nil =>
    cases m' with
    | nil => rfl
    | cons d m' => exact absurd (hr d.1) (by obtain ⟨a, b⟩ := d; simp [read_cons])
  | cons c m ih =>
    obtain ⟨a, b⟩ := c
    cases m' with
    | nil => exact absurd (hr a) (by simp [read_cons])
    | cons d m' =>
      obtain ⟨a', b'⟩ := d
      have p := List.pairwise_cons.1 h
      have p' := List.pairwise_cons.1 h'
      have key : a = a' := by
        rcases Nat.lt_trichotomy a a' with hlt | heq | hgt
        · have := hr a
          rw [read_cons, if_pos rfl, read_cons, if_neg (by omega),
            read_of_lt m' a fun c hc => Nat.lt_trans hlt (p'.1 c hc)] at this
          cases this
        · exact heq
        · have := hr a'
          rw [read_cons, if_neg (by omega), read_of_lt m a' fun c hc => Nat.lt_trans hgt (p.1 c hc), read_cons,
            if_pos rfl] at this
          cases this
      subst key
      have hb : b = b' := by simpa [read_cons] using hr a
      subst hb
      congr 1
      refine ih p.2 p'.2 fun i => ?_
      by_cases hi : a = i
      · subst hi
        rw [read_of_lt m a p.1, read_of_lt m' a p'.1]
      · simpa [read_cons, hi] using hr i

theorem mem_ofBytesFrom (bs : List Byte) (k : Nat) (c : Host.Cell) (h : c ∈ ofBytesFrom k bs) : k ≤ c.1 := by
  induction bs generalizing k with
  | nil => cases h
  | cons b bs ih =>
    rcases List.mem_cons.1 h with rfl | h
    · exact Nat.le_refl _
    · exact Nat.le_of_succ_le (ih (k + 1) h)

theorem ofBytesFrom_wf (bs : List Byte) (k : Nat) : (ofBytesFrom k bs).wf := by
  induction bs generalizing k with
  | nil => exact List.Pairwise.nil
  | cons b bs ih => exact List.pairwise_cons.2 ⟨fun c hc => mem_ofBytesFrom bs (k + 1) c hc, ih (k + 1)⟩

/-- A result laid out from index 0 is in canonical form. -/
theorem ofBytes_wf (bs : List Byte) : (ofBytes bs).wf := ofBytesFrom_wf bs 0

theorem read_ofBytesFrom (bs : List Byte) (k i : Nat) : (ofBytesFrom k bs).read (k + i) = bs[i]? := by
  induction bs generalizing k i with
  | nil => simp [ofBytesFrom]
  | cons b bs ih =>
    rw [ofBytesFrom, read_cons]
    cases i with
    | zero => simp
    | succ i =>
      rw [if_neg (by omega), show k + (i + 1) = k + 1 + i by omega, ih]
      simp

/-- Byte `i` of a result laid out from index 0 is its byte `i`; no other byte is determined. -/
@[simp] theorem read_ofBytes (bs : List Byte) (i : Nat) : (ofBytes bs).read i = bs[i]? := by
  have h := read_ofBytesFrom bs 0 i
  rwa [Nat.zero_add] at h

theorem ofBytesFrom_eq_nil (bs : List Byte) (k : Nat) : ofBytesFrom k bs = [] ↔ bs = [] := by
  cases bs <;> simp [ofBytesFrom]

/-- What a range read gives, byte by byte. -/
theorem readRange_eq_some (m : Memory) (k n : Nat) (bs : List Byte) :
    m.readRange k n = some bs ↔ bs.length = n ∧ ∀ i, i < n → m.read (k + i) = bs[i]? := by
  induction n generalizing k bs with
  | zero => cases bs <;> simp [readRange]
  | succ n ih =>
    constructor
    · intro h
      rw [readRange] at h
      split at h
      · next b r hb hr =>
        cases h
        obtain ⟨hl, hi⟩ := (ih (k + 1) r).1 hr
        refine ⟨by simp [hl], fun i hlt => ?_⟩
        cases i with
        | zero => simpa using hb
        | succ i =>
          rw [show k + (i + 1) = k + 1 + i by omega, hi i (by omega)]
          simp
      · cases h
    · rintro ⟨hl, hi⟩
      cases bs with
      | nil => simp at hl
      | cons b r =>
        have hb : m.read k = some b := by simpa using hi 0 (by omega)
        have hr : m.readRange (k + 1) n = some r := by
          refine (ih (k + 1) r).2 ⟨by simpa using hl, fun i hlt => ?_⟩
          have := hi (i + 1) (by omega)
          rw [show k + (i + 1) = k + 1 + i by omega] at this
          simpa using this
        simp [readRange, hb, hr]

/-- A range read fails exactly where a byte of the range holds no value. -/
theorem readRange_eq_none (m : Memory) (k n : Nat) : m.readRange k n = none ↔ ∃ i, i < n ∧ m.read (k + i) = none := by
  induction n generalizing k with
  | zero => simp [readRange]
  | succ n ih =>
    cases hb : m.read k with
    | none => simp only [readRange, hb, true_iff]; exact ⟨0, by omega, hb⟩
    | some b =>
      have : m.readRange k (n + 1) = none ↔ m.readRange (k + 1) n = none := by
        rw [readRange, hb]
        cases m.readRange (k + 1) n <;> simp
      rw [this, ih]
      constructor
      · rintro ⟨i, hi, h⟩
        exact ⟨i + 1, by omega, by rw [show k + (i + 1) = k + 1 + i by omega]; exact h⟩
      · rintro ⟨i, hi, h⟩
        cases i with
        | zero => rw [Nat.add_zero, hb] at h; cases h
        | succ i => exact ⟨i, by omega, by rw [show k + 1 + i = k + (i + 1) by omega]; exact h⟩

theorem readRange_congr {m m' : Memory} (k n : Nat) (h : ∀ i, i < n → m.read (k + i) = m'.read (k + i)) :
    m.readRange k n = m'.readRange k n := by
  induction n generalizing k with
  | zero => rfl
  | succ n ih =>
    have h0 : m.read k = m'.read k := h 0 (by omega)
    have hr := ih (k + 1) fun i hi => by
      have := h (i + 1) (by omega)
      rwa [show k + (i + 1) = k + 1 + i by omega] at this
    rw [readRange, readRange, h0, hr]

/-- The result of a completed command reads back whole. -/
theorem readRange_ofBytes (bs : List Byte) : (ofBytes bs).readRange 0 bs.length = some bs :=
  (readRange_eq_some _ _ _ _).2 ⟨rfl, fun i _ => by simp⟩

theorem writeRange_wf (m : Memory) (k : Nat) (bs : List Byte) (h : m.wf) : (m.writeRange k bs).wf := by
  induction bs generalizing m k with
  | nil => exact h
  | cons b bs ih => exact ih _ _ (write_wf m k b h)

/-- Consecutive writes from index `k`: their own bytes there, the others as before. -/
theorem read_writeRange (m : Memory) (k : Nat) (bs : List Byte) (i : Nat) :
    (m.writeRange k bs).read i = if k ≤ i ∧ i < k + bs.length then bs[i - k]? else m.read i := by
  induction bs generalizing m k with
  | nil => simp [writeRange]
  | cons b bs ih =>
    rw [writeRange, ih, read_write, List.length_cons]
    by_cases h1 : i = k
    · subst h1
      rw [if_neg (by omega), if_pos rfl, if_pos (by omega)]; simp
    · by_cases h2 : k + 1 ≤ i ∧ i < k + 1 + bs.length
      · rw [if_pos h2, if_pos (by omega), show i - k = (i - (k + 1)) + 1 by omega]; simp
      · rw [if_neg h2, if_neg h1, if_neg (by omega)]

end Memory

/-- A big-endian serialization has the length asked for (00_scope.md R12). -/
@[simp] theorem be_length (v n : Nat) : (be v n).length = n := by
  induction n with
  | zero => rfl
  | succ n ih => simp [be, ih]

/-- The big-endian serialization by index (00_scope.md R12). -/
theorem be_getElem? (v n k : Nat) (h : k < n) : (be v n)[k]? = some (BitVec.ofNat 8 (v >>> (8 * (n - 1 - k)))) := by
  induction n generalizing k with
  | zero => omega
  | succ n ih =>
    cases k with
    | zero => simp [be]
    | succ k =>
      rw [be, List.getElem?_cons_succ, ih k (by omega)]
      congr 4
      omega

/-- The two readings of `be` agree (00_scope.md R12). -/
theorem be_eq_beRef (v n : Nat) : be v n = beRef v n := by
  apply List.ext_getElem?
  intro k
  by_cases h : k < n
  · rw [be_getElem? v n k h]
    simp [beRef, List.getElem?_range h]
    apply BitVec.eq_of_toNat_eq
    simp
  · rw [List.getElem?_eq_none (by simp; omega), List.getElem?_eq_none (by simp [beRef]; omega)]

end Sys2Proof.Machine
end

