-- ==== Sys2Proof/Laws/State.lean ====
section
/-! SUPPORT. One lemma for each field of each update of the state, so that no later proof unfolds a record update. -/

namespace Sys2Proof.Machine

/-! ### `issue` (30_encoding.md R80) -/

@[simp] theorem State.issue_cmd (s : State) (w : Word) : (s.issue w).cmd = w := rfl
@[simp] theorem State.issue_status (s : State) (w : Word) : (s.issue w).status = statusRunning := rfl
@[simp] theorem State.issue_inLen (s : State) (w : Word) : (s.issue w).inLen = s.inLen := rfl
@[simp] theorem State.issue_outLen (s : State) (w : Word) : (s.issue w).outLen = s.outLen := rfl
@[simp] theorem State.issue_inMem (s : State) (w : Word) : (s.issue w).inMem = s.inMem := rfl
@[simp] theorem State.issue_outMem (s : State) (w : Word) : (s.issue w).outMem = [] := rfl
@[simp] theorem State.issue_phase (s : State) (w : Word) : (s.issue w).phase = .busy := rfl
@[simp] theorem State.issue_latch (s : State) (w : Word) : (s.issue w).latch = w := rfl
@[simp] theorem State.issue_cfg (s : State) (w : Word) : (s.issue w).cfg = s.cfg := rfl
@[simp] theorem State.issue_remaining (s : State) (w : Word) : (s.issue w).remaining = s.schedule.headD 0 := rfl
@[simp] theorem State.issue_schedule (s : State) (w : Word) : (s.issue w).schedule = s.schedule.tail := rfl
@[simp] theorem State.issue_inputs (s : State) (w : Word) : (s.issue w).inputs = s.inputs := rfl
@[simp] theorem State.issue_responses (s : State) (w : Word) : (s.issue w).responses = s.responses := rfl
@[simp] theorem State.issue_draws (s : State) (w : Word) : (s.issue w).draws = s.draws := rfl

/-! ### `completeOk` (30_encoding.md R82) -/

@[simp] theorem State.completeOk_cmd (s : State) (bs : List Byte) : (s.completeOk bs).cmd = s.cmd := rfl
@[simp] theorem State.completeOk_status (s : State) (bs : List Byte) : (s.completeOk bs).status = statusOk := rfl
@[simp] theorem State.completeOk_inLen (s : State) (bs : List Byte) : (s.completeOk bs).inLen = s.inLen := rfl
@[simp] theorem State.completeOk_outLen (s : State) (bs : List Byte) : (s.completeOk bs).outLen = BitVec.ofNat 32 bs.length := rfl
@[simp] theorem State.completeOk_inMem (s : State) (bs : List Byte) : (s.completeOk bs).inMem = s.inMem := rfl
@[simp] theorem State.completeOk_outMem (s : State) (bs : List Byte) : (s.completeOk bs).outMem = Memory.ofBytes bs := rfl
@[simp] theorem State.completeOk_phase (s : State) (bs : List Byte) : (s.completeOk bs).phase = .idle := rfl
@[simp] theorem State.completeOk_latch (s : State) (bs : List Byte) : (s.completeOk bs).latch = s.latch := rfl
@[simp] theorem State.completeOk_cfg (s : State) (bs : List Byte) : (s.completeOk bs).cfg = s.cfg := rfl
@[simp] theorem State.completeOk_remaining (s : State) (bs : List Byte) : (s.completeOk bs).remaining = s.remaining := rfl
@[simp] theorem State.completeOk_schedule (s : State) (bs : List Byte) : (s.completeOk bs).schedule = s.schedule := rfl
@[simp] theorem State.completeOk_inputs (s : State) (bs : List Byte) : (s.completeOk bs).inputs = s.inputs := rfl
@[simp] theorem State.completeOk_responses (s : State) (bs : List Byte) : (s.completeOk bs).responses = s.responses := rfl
@[simp] theorem State.completeOk_draws (s : State) (bs : List Byte) : (s.completeOk bs).draws = s.draws := rfl

/-! ### `completeErr` (60_exceptions.md R236) -/

@[simp] theorem State.completeErr_cmd (s : State) (e : Err) : (s.completeErr e).cmd = s.cmd := rfl
@[simp] theorem State.completeErr_status (s : State) (e : Err) : (s.completeErr e).status = statusErr e := rfl
@[simp] theorem State.completeErr_inLen (s : State) (e : Err) : (s.completeErr e).inLen = s.inLen := rfl
@[simp] theorem State.completeErr_outLen (s : State) (e : Err) : (s.completeErr e).outLen = 0#32 := rfl
@[simp] theorem State.completeErr_inMem (s : State) (e : Err) : (s.completeErr e).inMem = s.inMem := rfl
@[simp] theorem State.completeErr_outMem (s : State) (e : Err) : (s.completeErr e).outMem = [] := rfl
@[simp] theorem State.completeErr_phase (s : State) (e : Err) : (s.completeErr e).phase = .idle := rfl
@[simp] theorem State.completeErr_latch (s : State) (e : Err) : (s.completeErr e).latch = s.latch := rfl
@[simp] theorem State.completeErr_cfg (s : State) (e : Err) : (s.completeErr e).cfg = s.cfg := rfl
@[simp] theorem State.completeErr_remaining (s : State) (e : Err) : (s.completeErr e).remaining = s.remaining := rfl
@[simp] theorem State.completeErr_schedule (s : State) (e : Err) : (s.completeErr e).schedule = s.schedule := rfl
@[simp] theorem State.completeErr_inputs (s : State) (e : Err) : (s.completeErr e).inputs = s.inputs := rfl
@[simp] theorem State.completeErr_responses (s : State) (e : Err) : (s.completeErr e).responses = s.responses := rfl
@[simp] theorem State.completeErr_draws (s : State) (e : Err) : (s.completeErr e).draws = s.draws := rfl

/-! ### `resetBlock` (70_reset_and_hazards.md R260) -/

@[simp] theorem State.resetBlock_cmd (s : State) : (s.resetBlock).cmd = 0#32 := rfl
@[simp] theorem State.resetBlock_status (s : State) : (s.resetBlock).status = statusReset := rfl
@[simp] theorem State.resetBlock_inLen (s : State) : (s.resetBlock).inLen = 0#32 := rfl
@[simp] theorem State.resetBlock_outLen (s : State) : (s.resetBlock).outLen = 0#32 := rfl
@[simp] theorem State.resetBlock_inMem (s : State) : (s.resetBlock).inMem = [] := rfl
@[simp] theorem State.resetBlock_outMem (s : State) : (s.resetBlock).outMem = [] := rfl
@[simp] theorem State.resetBlock_phase (s : State) : (s.resetBlock).phase = .idle := rfl
@[simp] theorem State.resetBlock_latch (s : State) : (s.resetBlock).latch = 0#32 := rfl
@[simp] theorem State.resetBlock_cfg (s : State) : (s.resetBlock).cfg = s.cfg := rfl
@[simp] theorem State.resetBlock_remaining (s : State) : (s.resetBlock).remaining = 0 := rfl
@[simp] theorem State.resetBlock_schedule (s : State) : (s.resetBlock).schedule = s.schedule := rfl
@[simp] theorem State.resetBlock_inputs (s : State) : (s.resetBlock).inputs = s.inputs := rfl
@[simp] theorem State.resetBlock_responses (s : State) : (s.resetBlock).responses = s.responses := rfl
@[simp] theorem State.resetBlock_draws (s : State) : (s.resetBlock).draws = s.draws := rfl

/-! ### `respond` (the host port's answer) -/

@[simp] theorem State.respond_cmd (s : State) (r : Response) : (s.respond r).cmd = s.cmd := rfl
@[simp] theorem State.respond_status (s : State) (r : Response) : (s.respond r).status = s.status := rfl
@[simp] theorem State.respond_inLen (s : State) (r : Response) : (s.respond r).inLen = s.inLen := rfl
@[simp] theorem State.respond_outLen (s : State) (r : Response) : (s.respond r).outLen = s.outLen := rfl
@[simp] theorem State.respond_inMem (s : State) (r : Response) : (s.respond r).inMem = s.inMem := rfl
@[simp] theorem State.respond_outMem (s : State) (r : Response) : (s.respond r).outMem = s.outMem := rfl
@[simp] theorem State.respond_phase (s : State) (r : Response) : (s.respond r).phase = s.phase := rfl
@[simp] theorem State.respond_latch (s : State) (r : Response) : (s.respond r).latch = s.latch := rfl
@[simp] theorem State.respond_cfg (s : State) (r : Response) : (s.respond r).cfg = s.cfg := rfl
@[simp] theorem State.respond_remaining (s : State) (r : Response) : (s.respond r).remaining = s.remaining := rfl
@[simp] theorem State.respond_schedule (s : State) (r : Response) : (s.respond r).schedule = s.schedule := rfl
@[simp] theorem State.respond_inputs (s : State) (r : Response) : (s.respond r).inputs = s.inputs := rfl
@[simp] theorem State.respond_responses (s : State) (r : Response) : (s.respond r).responses = r :: s.responses := rfl
@[simp] theorem State.respond_draws (s : State) (r : Response) : (s.respond r).draws = s.draws := rfl

/-! ### `pushInputs` (the script) -/

@[simp] theorem State.pushInputs_cmd (s : State) (ls : List Input) : (s.pushInputs ls).cmd = s.cmd := rfl
@[simp] theorem State.pushInputs_status (s : State) (ls : List Input) : (s.pushInputs ls).status = s.status := rfl
@[simp] theorem State.pushInputs_inLen (s : State) (ls : List Input) : (s.pushInputs ls).inLen = s.inLen := rfl
@[simp] theorem State.pushInputs_outLen (s : State) (ls : List Input) : (s.pushInputs ls).outLen = s.outLen := rfl
@[simp] theorem State.pushInputs_inMem (s : State) (ls : List Input) : (s.pushInputs ls).inMem = s.inMem := rfl
@[simp] theorem State.pushInputs_outMem (s : State) (ls : List Input) : (s.pushInputs ls).outMem = s.outMem := rfl
@[simp] theorem State.pushInputs_phase (s : State) (ls : List Input) : (s.pushInputs ls).phase = s.phase := rfl
@[simp] theorem State.pushInputs_latch (s : State) (ls : List Input) : (s.pushInputs ls).latch = s.latch := rfl
@[simp] theorem State.pushInputs_cfg (s : State) (ls : List Input) : (s.pushInputs ls).cfg = s.cfg := rfl
@[simp] theorem State.pushInputs_remaining (s : State) (ls : List Input) : (s.pushInputs ls).remaining = s.remaining := rfl
@[simp] theorem State.pushInputs_schedule (s : State) (ls : List Input) : (s.pushInputs ls).schedule = s.schedule := rfl
@[simp] theorem State.pushInputs_inputs (s : State) (ls : List Input) : (s.pushInputs ls).inputs = ls ++ s.inputs := rfl
@[simp] theorem State.pushInputs_responses (s : State) (ls : List Input) : (s.pushInputs ls).responses = s.responses := rfl
@[simp] theorem State.pushInputs_draws (s : State) (ls : List Input) : (s.pushInputs ls).draws = s.draws := rfl

/-! ### `tick` (30_encoding.md R82, LATENCY) -/

@[simp] theorem State.tick_cmd (s : State) : (s.tick).cmd = s.cmd := rfl
@[simp] theorem State.tick_status (s : State) : (s.tick).status = s.status := rfl
@[simp] theorem State.tick_inLen (s : State) : (s.tick).inLen = s.inLen := rfl
@[simp] theorem State.tick_outLen (s : State) : (s.tick).outLen = s.outLen := rfl
@[simp] theorem State.tick_inMem (s : State) : (s.tick).inMem = s.inMem := rfl
@[simp] theorem State.tick_outMem (s : State) : (s.tick).outMem = s.outMem := rfl
@[simp] theorem State.tick_phase (s : State) : (s.tick).phase = s.phase := rfl
@[simp] theorem State.tick_latch (s : State) : (s.tick).latch = s.latch := rfl
@[simp] theorem State.tick_cfg (s : State) : (s.tick).cfg = s.cfg := rfl
@[simp] theorem State.tick_remaining (s : State) : (s.tick).remaining = s.remaining - 1 := rfl
@[simp] theorem State.tick_schedule (s : State) : (s.tick).schedule = s.schedule := rfl
@[simp] theorem State.tick_inputs (s : State) : (s.tick).inputs = s.inputs := rfl
@[simp] theorem State.tick_responses (s : State) : (s.tick).responses = s.responses := rfl
@[simp] theorem State.tick_draws (s : State) : (s.tick).draws = s.draws := rfl

/-! ### `withFetchWord` (log 7) -/

@[simp] theorem State.withFetchWord_cmd (s : State) (n w : Nat) : (s.withFetchWord n w).cmd = tableWord n w := rfl
@[simp] theorem State.withFetchWord_status (s : State) (n w : Nat) : (s.withFetchWord n w).status = statusRunning := rfl
@[simp] theorem State.withFetchWord_inLen (s : State) (n w : Nat) : (s.withFetchWord n w).inLen = s.inLen := rfl
@[simp] theorem State.withFetchWord_outLen (s : State) (n w : Nat) : (s.withFetchWord n w).outLen = s.outLen := rfl
@[simp] theorem State.withFetchWord_inMem (s : State) (n w : Nat) : (s.withFetchWord n w).inMem = s.inMem := rfl
@[simp] theorem State.withFetchWord_outMem (s : State) (n w : Nat) : (s.withFetchWord n w).outMem = s.outMem := rfl
@[simp] theorem State.withFetchWord_phase (s : State) (n w : Nat) : (s.withFetchWord n w).phase = .busy := rfl
@[simp] theorem State.withFetchWord_latch (s : State) (n w : Nat) : (s.withFetchWord n w).latch = tableWord n w := rfl
@[simp] theorem State.withFetchWord_cfg (s : State) (n w : Nat) : (s.withFetchWord n w).cfg = s.cfg := rfl
@[simp] theorem State.withFetchWord_remaining (s : State) (n w : Nat) : (s.withFetchWord n w).remaining = 0 := rfl
@[simp] theorem State.withFetchWord_schedule (s : State) (n w : Nat) : (s.withFetchWord n w).schedule = s.schedule := rfl
@[simp] theorem State.withFetchWord_inputs (s : State) (n w : Nat) : (s.withFetchWord n w).inputs = s.inputs := rfl
@[simp] theorem State.withFetchWord_responses (s : State) (n w : Nat) : (s.withFetchWord n w).responses = s.responses := rfl
@[simp] theorem State.withFetchWord_draws (s : State) (n w : Nat) : (s.withFetchWord n w).draws = s.draws := rfl

end Sys2Proof.Machine
end

