-- ==== Sys2Proof/Laws/Ops.lean ====
section
/-! SUPPORT. What each shared operation can do, said once: the commands, the host port, the script and the step. -/

namespace Sys2Proof.Machine

/-! ### Completions -/

@[simp] theorem Memory.holds_ofBytes (bs : List Byte) : (Memory.ofBytes bs).Holds bs := fun i => Memory.read_ofBytes bs i

@[simp] theorem Memory.holds_nil : Memory.Holds [] [] := fun _ => rfl

theorem State.sameButOutput_completeOk (s : State) (bs : List Byte) : SameButOutput s (s.completeOk bs) :=
  ⟨rfl, rfl, rfl, rfl, rfl, rfl, rfl, rfl, rfl, rfl⟩

theorem State.sameButOutput_completeErr (s : State) (e : Err) : SameButOutput s (s.completeErr e) :=
  ⟨rfl, rfl, rfl, rfl, rfl, rfl, rfl, rfl, rfl, rfl⟩

theorem State.sameButOutput_complete (s : State) (r : Except Err (List Byte)) : SameButOutput s (s.complete r) := by
  cases r
  · exact s.sameButOutput_completeErr _
  · exact s.sameButOutput_completeOk _

/-- A successful completion whose result is shorter than `2^32` bytes. -/
theorem State.succeeds_completeOk (s : State) (bs : List Byte) (h : bs.length < 2 ^ 32) : Succeeds s (s.completeOk bs) bs where
  outMem := Memory.holds_ofBytes bs
  outLen := by simpa using h
  status := rfl
  phase := rfl
  frame := s.sameButOutput_completeOk bs

theorem State.failsWith_completeErr (s : State) (e : Err) : FailsWith s (s.completeErr e) (statusErr e) where
  outMem := Memory.holds_nil
  outLen := rfl
  status := rfl
  phase := rfl
  frame := s.sameButOutput_completeErr e

theorem Config.wf_iff (c : Config) :
    c.wf = true ↔ 1 ≤ c.maxIn ∧ c.maxIn ≤ 0x100000 ∧ 1 ≤ c.maxOut ∧ c.maxOut ≤ 0x100000 ∧ c.base % 0x400000 = 0 := by
  simp only [Config.wf, Bool.and_eq_true, decide_eq_true_eq, and_assoc]

/-- Within its bounds MAX_OUT is far below `2^32` (00_scope.md R6). -/
theorem Config.maxOut_lt (c : Config) (h : c.wf = true) : c.maxOut < 2 ^ 32 := by
  have := (Config.wf_iff c).1 h
  omega

theorem fitsOut_of_le {n : Nat} {bs : List Byte} (h : bs.length ≤ n) : fitsOut n bs = .ok bs := by
  rw [fitsOut, if_neg (by omega)]

theorem fitsOut_of_lt {n : Nat} {bs : List Byte} (h : n < bs.length) : fitsOut n bs = .error .outRange := by
  rw [fitsOut, if_pos h]

theorem fitsOut_eq_ok {n : Nat} {bs cs : List Byte} (h : fitsOut n bs = .ok cs) : cs = bs ∧ bs.length ≤ n := by
  unfold fitsOut at h
  split at h
  · cases h
  · cases h; exact ⟨rfl, by omega⟩

theorem fitsOut_eq_error {n : Nat} {bs : List Byte} {e : Err} (h : fitsOut n bs = .error e) : e = .outRange := by
  unfold fitsOut at h
  split at h <;> cases h
  rfl

/-! ### The input operand -/

theorem State.HasInput.input {s : State} {x : List Byte} (h : s.HasInput x) : s.input = some x :=
  (Memory.readRange_eq_some _ _ _ _).2 ⟨h.len.symm, fun i hi => by rw [Nat.zero_add]; exact h.bytes i (h.len ▸ hi)⟩

theorem State.hasInput_of_input {s : State} {x : List Byte} (h : s.input = some x) (hr : s.inLen.toNat ≤ s.cfg.maxIn) :
    s.HasInput x := by
  obtain ⟨hl, hb⟩ := (Memory.readRange_eq_some _ _ _ _).1 h
  exact ⟨hl.symm, hl ▸ hr, fun i hi => by simpa using hb i (hl ▸ hi)⟩

/-! ### The commands -/

/-- Every command is its unit function under the one command frame. -/
theorem exec_eq_runUnit (i : Instr) (s : State) : exec i s = runUnit (unitOf s.cfg.maxOut i) s := by
  cases i <;> rfl

theorem runUnit_of_inRange {f : List Byte → Except Err (List Byte)} {s : State} (h : s.cfg.maxIn < s.inLen.toNat) :
    runUnit f s = .next (s.completeErr .inRange) := if_pos h

theorem runUnit_of_hasInput {f : List Byte → Except Err (List Byte)} {s : State} {x : List Byte} (h : s.HasInput x) :
    runUnit f s = .next (s.complete ((f x).bind (fitsOut s.cfg.maxOut))) := by
  have hr : ¬ s.cfg.maxIn < s.inLen.toNat := by have := h.inRange; rw [h.len]; omega
  simp only [runUnit, if_neg hr, h.input]

theorem runUnit_of_unwritten {f : List Byte → Except Err (List Byte)} {s : State} (hr : s.inLen.toNat ≤ s.cfg.maxIn)
    (h : s.input = none) : runUnit f s = .fault .unwrittenInput := by
  simp only [runUnit, if_neg (by omega : ¬ s.cfg.maxIn < s.inLen.toNat), h]

/-- Everything a command can do. -/
theorem runUnit_cases (f : List Byte → Except Err (List Byte)) (s : State) :
    (s.cfg.maxIn < s.inLen.toNat ∧ runUnit f s = .next (s.completeErr .inRange)) ∨
    (s.inLen.toNat ≤ s.cfg.maxIn ∧ s.input = none ∧ runUnit f s = .fault .unwrittenInput) ∨
    (∃ x, s.HasInput x ∧ runUnit f s = .next (s.complete ((f x).bind (fitsOut s.cfg.maxOut)))) := by
  by_cases hr : s.cfg.maxIn < s.inLen.toNat
  · exact .inl ⟨hr, runUnit_of_inRange hr⟩
  · have hr' : s.inLen.toNat ≤ s.cfg.maxIn := by omega
    cases hx : s.input with
    | none => exact .inr (.inl ⟨hr', rfl, runUnit_of_unwritten hr' hx⟩)
    | some x =>
      have := State.hasInput_of_input hx hr'
      exact .inr (.inr ⟨x, this, runUnit_of_hasInput this⟩)

/-- A command that answers a next state completes, with an error or with a result that fits. -/
theorem runUnit_next {f : List Byte → Except Err (List Byte)} {s t : State} (h : runUnit f s = .next t) :
    (∃ e, t = s.completeErr e) ∨ ∃ bs, bs.length ≤ s.cfg.maxOut ∧ t = s.completeOk bs := by
  rcases runUnit_cases f s with ⟨_, h'⟩ | ⟨_, _, h'⟩ | ⟨x, _, h'⟩ <;> rw [h] at h'
  · cases h'; exact .inl ⟨_, rfl⟩
  · cases h'
  · cases h'
    cases hf : f x with
    | error e => exact .inl ⟨e, rfl⟩
    | ok bs =>
      cases hb : fitsOut s.cfg.maxOut bs with
      | error e => exact .inl ⟨e, by show s.complete (fitsOut _ bs) = _; rw [hb]; rfl⟩
      | ok cs =>
        obtain ⟨rfl, hl⟩ := fitsOut_eq_ok hb
        exact .inr ⟨cs, hl, by show s.complete (fitsOut _ cs) = _; rw [hb]; rfl⟩

/-- A command never refuses. -/
theorem runUnit_ne_refused (f : List Byte → Except Err (List Byte)) (s : State) (r : Refusal) : runUnit f s ≠ .refused r := by
  rcases runUnit_cases f s with ⟨_, h'⟩ | ⟨_, _, h'⟩ | ⟨x, _, h'⟩ <;> rw [h'] <;> exact fun h => nomatch h

/-- Everything the core's completion can do when it answers a next state. -/
theorem coreStep_next {s t : State} (h : coreStep s = .next t) :
    (∃ e, t = s.completeErr e) ∨ ∃ bs, bs.length ≤ s.cfg.maxOut ∧ t = s.completeOk bs := by
  unfold coreStep at h
  split at h
  · rw [exec_eq_runUnit] at h; exact runUnit_next h
  · cases h; exact .inl ⟨_, rfl⟩

/-! ### The host port -/

/-- What a location read answers is never a bus error. -/
theorem readTarget_ne_busError (t : Target) (s : State) : (readTarget t s).1 ≠ .busError := by
  have hb : ∀ (o : Option Byte) d, (byteOrDraw o d).1 ≠ .busError := fun o d => by cases o <;> simp [byteOrDraw]
  cases t <;> simp only [readTarget] <;> first | (split <;> first | exact hb _ _ | simp) | exact hb _ _ | simp

/-- A byte index an access can name is within its buffer. -/
theorem target_inByte {c : Config} {addr n i : Nat} (h : target c addr n = some (.inByte i)) : i < c.maxIn := by
  have reg : ∀ off, registerAt off ≠ some (.inByte i) := fun off => by
    unfold registerAt
    repeat' split
    all_goals exact fun h => nomatch h
  have buf : ∀ off, bufferByteAt c off = some (.inByte i) → i < c.maxIn := fun off hb => by
    unfold bufferByteAt at hb
    split at hb
    · next h' => injection hb with hb; injection hb with hb; omega
    · split at hb <;> exact nomatch hb
  unfold target at h
  split at h
  · split at h
    · exact absurd h (reg _)
    · split at h
      · exact buf _ h
      · exact nomatch h
  · exact nomatch h

/-- The three ways an accepted write changes the block, and their targets. -/
inductive HostWrite (s : State) : State → Prop where
  | issue (w : Word) : HostWrite s (s.issue w)
  | inLen (v : Word) : HostWrite s { s with inLen := v }
  | inByte (i : Nat) (v : Byte) (h : i < s.cfg.maxIn) : HostWrite s { s with inMem := s.inMem.write i v }

/-- An access that leaves the block alone. -/
theorem respond_same_draws (s : State) (r : Response) : s.respond r = { s with draws := s.draws }.respond r := rfl

theorem Phase.idle_or_busy (p : Phase) : p = .idle ∨ p = .busy := by cases p <;> simp

theorem ignoreWhileBusy_busy {s : State} (t : State) (h : s.phase = .busy) : ignoreWhileBusy s t = s := by
  simp only [ignoreWhileBusy, h]

theorem ignoreWhileBusy_idle {s : State} (t : State) (h : s.phase = .idle) : ignoreWhileBusy s t = t := by
  simp only [ignoreWhileBusy, h]

/-- An accepted write while IDLE, by its target. -/
theorem writeTarget_hostWrite {c : Config} {t : Target} {v : Nat} {s s' : State} (hc : s.cfg = c)
    (ht : ∀ i, t = .inByte i → i < c.maxIn) (h : writeTarget t v s = some s') : HostWrite s s' := by
  cases t <;> simp only [writeTarget, Option.some.injEq, reduceCtorEq] at h <;> subst h
  · exact .issue _
  · exact .inLen _
  · exact .inByte _ _ (hc ▸ ht _ rfl)

/-- Everything one host-port access can do: it leaves the block alone, or it is a write while IDLE. -/
theorem performAccess_cases (a : Access) (s : State) :
    (∃ r d, performAccess a s = { s with draws := d }.respond r) ∨
    (s.phase = .idle ∧ ∃ t, HostWrite s t ∧ performAccess a s = t.respond .written) := by
  cases a with
  | read addr n =>
    simp only [performAccess]
    split
    · exact .inl ⟨_, _, respond_same_draws s _⟩
    · exact .inl ⟨_, _, rfl⟩
  | write addr n v =>
    simp only [performAccess]
    split
    · exact .inl ⟨_, _, respond_same_draws s _⟩
    · next s' h =>
      rcases Phase.idle_or_busy s.phase with hp | hp
      case inr => rw [ignoreWhileBusy_busy _ hp]; exact .inl ⟨_, _, respond_same_draws s _⟩
      case inl =>
        refine .inr ⟨hp, s', ?_, by rw [ignoreWhileBusy_idle _ hp]⟩
        cases ht : target s.cfg addr n with
        | none => rw [ht] at h; exact nomatch h
        | some t =>
          rw [ht] at h
          exact writeTarget_hostWrite rfl (fun i hi => target_inByte (hi ▸ ht)) h

/-- While BUSY an access changes nothing but the record of answers and the draw counter. -/
theorem performAccess_busy (a : Access) (s : State) (h : s.phase = .busy) :
    ∃ r d, performAccess a s = { s with draws := d }.respond r := by
  rcases performAccess_cases a s with h' | ⟨h', _⟩
  · exact h'
  · rw [h] at h'; cases h'

/-! ### The script -/

/-- A line other than reset performs one access and leaves lines in front of the script, none of them a reset. -/
theorem performInput_cases (l : Input) (s : State) :
    (l = .reset ∧ performInput l s = s.resetBlock) ∨
    ∃ a ls, Input.reset ∉ ls ∧ performInput l s = (performAccess a s).pushInputs ls := by
  have nil : ∀ t : State, t = t.pushInputs [] := fun t => rfl
  cases l with
  | access a => exact .inr ⟨a, [], by simp, nil _⟩
  | issue i => exact .inr ⟨_, [], by simp, nil _⟩
  | wait =>
    right
    simp only [performInput]
    split
    · exact ⟨_, [], by simp, nil _⟩
    · exact ⟨_, [.wait], by simp, rfl⟩
  | run i => exact .inr ⟨_, [.wait], by simp, rfl⟩
  | loadIn k bs =>
    cases bs with
    | nil => exact .inr ⟨_, [], by simp, nil _⟩
    | cons b bs => exact .inr ⟨_, [.loadIn (k + 1) bs], by simp, rfl⟩
  | readOut =>
    refine .inr ⟨_, readOutRest 0 _, ?_, rfl⟩
    unfold readOutRest; split <;> simp
  | readOutFrom k n =>
    refine .inr ⟨_, readOutRest (k + 1) n, ?_, rfl⟩
    unfold readOutRest; split <;> simp
  | chain =>
    refine .inr ⟨_, chainRest 0 _ [], ?_, rfl⟩
    unfold chainRest; split <;> simp
  | chainFrom k n got =>
    refine .inr ⟨_, chainRest (k + 1) n _, ?_, rfl⟩
    unfold chainRest; split <;> simp
  | reset => exact .inl ⟨rfl, rfl⟩

/-- Everything a host-port step can do: nothing, reset, or one access with a new script. -/
theorem hostTurn_cases (s : State) :
    (s.inputs = [] ∧ hostTurn s = s) ∨
    (∃ ls, s.inputs = .reset :: ls ∧ hostTurn s = { s with inputs := ls }.resetBlock) ∨
    (∃ l ls a new, s.inputs = l :: ls ∧ l ≠ .reset ∧ Input.reset ∉ new ∧
      hostTurn s = (performAccess a { s with inputs := ls }).pushInputs new) := by
  unfold hostTurn
  split
  · next h => exact .inl ⟨h, rfl⟩
  · next l ls h =>
    by_cases hl : l = .reset
    · subst hl; exact .inr (.inl ⟨ls, h, rfl⟩)
    · rcases performInput_cases l { s with inputs := ls } with ⟨h', _⟩ | ⟨a, new, hn, h'⟩
      · exact absurd h' hl
      · exact .inr (.inr ⟨l, ls, a, new, h, hl, hn, h'⟩)

/-! ### The step -/

theorem step_idle {s : State} (h : s.phase = .idle) : step s = .next (hostTurn s) := by
  simp [step, h]

theorem step_complete {s : State} (h : s.phase = .busy) (hr : s.remaining = 0) : step s = coreStep s := by
  simp [step, h, hr]

theorem step_wait {s : State} (h : s.phase = .busy) (hr : s.remaining ≠ 0) : step s = .next (hostTurn s.tick) := by
  simp [step, h, hr]

/-- The three kinds of step that answer a next state. -/
theorem step_next {s t : State} (h : step s = .next t) :
    (s.phase = .idle ∧ t = hostTurn s) ∨ (s.phase = .busy ∧ s.remaining ≠ 0 ∧ t = hostTurn s.tick) ∨
    (s.phase = .busy ∧ s.remaining = 0 ∧ coreStep s = .next t) := by
  cases hp : s.phase with
  | idle => rw [step_idle hp] at h; cases h; exact .inl ⟨rfl, rfl⟩
  | busy =>
    by_cases hr : s.remaining = 0
    · rw [step_complete hp hr] at h; exact .inr (.inr ⟨rfl, hr, h⟩)
    · rw [step_wait hp hr] at h; cases h; exact .inr (.inl ⟨rfl, hr, rfl⟩)

end Sys2Proof.Machine
end

