-- ==== Sys2Proof/Laws/Script.lean ====
section
/-! SUPPORT. Lemmas about the host port, host scripts and runs. -/

open Host

namespace Sys2Proof.Machine

/-- A 4-byte access at one of the first 16 offsets. -/
theorem target_register (c : Config) (off : Nat) (h : off < 16) : target c (c.base + off) 4 = registerAt off := by
  unfold target
  rw [if_pos ⟨by omega, by show _ < c.base + 0x400000; omega⟩, if_pos rfl, Nat.add_sub_cancel_left]

/-- A 1-byte access to a byte of IN_MEM. -/
theorem target_inByte_of_lt (c : Config) (i : Nat) (hw : c.wf = true) (h : i < c.maxIn) :
    target c (c.base + 0x100000 + i) 1 = some (.inByte i) := by
  have hw := (Config.wf_iff c).1 hw
  unfold target bufferByteAt
  simp only [Config.windowSize, inMemOffset, outMemOffset, Nat.add_sub_cancel_left, Nat.add_assoc, if_true]
  rw [if_pos (by omega), if_neg (by omega), if_pos (by omega)]

/-- A 1-byte access to a byte of OUT_MEM. -/
theorem target_outByte_of_lt (c : Config) (i : Nat) (hw : c.wf = true) (h : i < c.maxOut) :
    target c (c.base + 0x200000 + i) 1 = some (.outByte i) := by
  have hw := (Config.wf_iff c).1 hw
  unfold target bufferByteAt
  simp only [Config.windowSize, inMemOffset, outMemOffset, Nat.add_sub_cancel_left, Nat.add_assoc, if_true]
  rw [if_pos (by omega), if_neg (by omega), if_neg (by omega), if_pos (by omega)]

/-- An accepted read: its answer is recorded, and of everything else only the draw counter can change. -/
theorem performAccess_read {s : State} {addr n : Nat} {t : Target} (h : target s.cfg addr n = some t) :
    performAccess (.read addr n) s = { s with draws := (readTarget t s).2, responses := (readTarget t s).1 :: s.responses } := by
  simp only [performAccess, h, State.respond]

/-- An accepted write. -/
theorem performAccess_write {s s' : State} {addr n v : Nat} {t : Target} (h : target s.cfg addr n = some t) (h' : writeTarget t v s = some s') :
    performAccess (.write addr n v) s = (ignoreWhileBusy s s').respond .written := by
  simp only [performAccess, h, Option.bind_some, h']

/-- A refused write. -/
theorem performAccess_write_refused {s : State} {addr n v : Nat} {t : Target} (h : target s.cfg addr n = some t) (h' : writeTarget t v s = none) :
    performAccess (.write addr n v) s = s.respond .busError := by
  simp only [performAccess, h, Option.bind_some, h']

/-- An access neither reads nor writes the script. -/
theorem performAccess_inputs (a : Access) (s : State) (ls : List Input) : performAccess a { s with inputs := ls } = { performAccess a s with inputs := ls } := by
  cases a with
  | read addr n =>
    simp only [performAccess]
    cases h : target s.cfg addr n with
    | none => rfl
    | some t =>
      have : readTarget t { s with inputs := ls } = readTarget t s := by cases t <;> rfl
      simp only [this]; rfl
  | write addr n v =>
    simp only [performAccess]
    cases h : target s.cfg addr n with
    | none => rfl
    | some t => 
      have : writeTarget t v { s with inputs := ls } = (writeTarget t v s).map fun u => { u with inputs := ls } := by cases t <;> rfl
      simp only [Option.bind_some, this]
      cases writeTarget t v s with
      | none => rfl
      | some u =>
        simp only [Option.map_some]
        rcases Phase.idle_or_busy s.phase with hp | hp
        · rw [ignoreWhileBusy_idle _ hp, ignoreWhileBusy_idle _ (by exact hp)]; rfl
        · rw [ignoreWhileBusy_busy _ hp, ignoreWhileBusy_busy _ (by exact hp)]; rfl

/-- A step while IDLE performs the first line of the script. -/
theorem step_host {s : State} {l : Input} {ls : List Input} (hp : s.phase = .idle) (h : s.inputs = l :: ls) : step s = .next (performInput l { s with inputs := ls }) := by
  rw [step_idle hp, hostTurn, h]

/-- A run goes on after its first step. -/
theorem run_core_succ {s t : State} (n : Nat) (h : step s = .next t) : Core.run core (n + 1) s = Core.run core n t := by
  have h : core.step s = .next t := h
  simp only [Core.run, h]

/-- A run in two parts. -/
theorem run_add {M : Core} (m n : Nat) (s t : M.State) (h : Core.run M m s = .next t) : Core.run M (m + n) s = Core.run M n t := by
  induction m generalizing s with
  | zero => simp only [Core.run, Outcome.next.injEq] at h; subst h; simp
  | succ m ih =>
    rw [Nat.succ_add_eq_add_succ m n, Core.run] at *
    rw [show m + (n+1) = (m + n) + 1 from rfl, Core.run]
    cases hs : M.step s with
    | next u => rw [hs] at h; exact ih u h
    | fault r => rw [hs] at h; cases h
    | refused r => rw [hs] at h; cases h

/-- `SameBlock` is transitive. -/
theorem SameBlock.trans {a b u : State} (h : SameBlock a b) (h' : SameBlock b u) : SameBlock a u :=
  ⟨h'.1.trans h.1, h'.2.trans h.2, h'.3.trans h.3, h'.4.trans h.4, h'.5.trans h.5, h'.6.trans h.6, h'.7.trans h.7, h'.8.trans h.8, h'.9.trans h.9⟩

/-- The input operand depends only on IN_LEN and the bytes below it. -/
theorem State.input_congr {s t : State} (h1 : t.inLen = s.inLen) (h2 : ∀ k, k < s.inLen.toNat → t.inMem.read k = s.inMem.read k) : t.input = s.input := by
  unfold State.input
  rw [h1]
  exact Memory.readRange_congr _ _ fun i hi => by simpa using h2 i hi

/-- Completion depends on the block alone. -/
theorem State.complete_sameBlock {s t : State} (h : SameBlock s t) (r) : SameBlock (s.complete r) (t.complete r) := by
  obtain ⟨h1, h2, h3, h4, h5, h6, h7, h8, h9⟩ := h
  cases r <;> exact ⟨h1, rfl, h3, rfl, h5, rfl, rfl, h8, h9⟩

/-- Whether a command can fault depends on the block alone. -/
theorem State.NoUnwritten.of_sameBlock {s t : State} (h : SameBlock s t) (hn : s.NoUnwritten) : t.NoUnwritten := by
  unfold State.NoUnwritten at *
  rw [h.latch, h.cfg, h.inLen, h.inMem]; exact hn

/-- The core completes a command that cannot fault. -/
theorem coreStep_total (s : State) (h : s.NoUnwritten) : ∃ t, coreStep s = .next t := by
  unfold coreStep
  cases hd : decode s.latch with
  | error c => exact ⟨_, rfl⟩
  | ok i =>
    simp only [exec_eq_runUnit]
    rcases runUnit_cases (unitOf s.cfg.maxOut i) s with ⟨_, h'⟩ | ⟨hr, hn, h'⟩ | ⟨x, _, h'⟩
    · exact ⟨_, h'⟩
    · obtain ⟨k, hk, hkn⟩ := (Memory.readRange_eq_none _ _ _).1 hn
      rcases h with ⟨c, hc⟩ | h | h
      · rw [hd] at hc; cases hc
      · omega
      · have := h k hk; rw [Nat.zero_add] at hkn; rw [hkn] at this; cases this
    · exact ⟨_, h'⟩

/-- A completion leaves IDLE and DONE. -/
theorem coreStep_done {s t : State} (h : coreStep s = .next t) : t.phase = .idle ∧ statusDone t.status = true ∧ statusBusy t.status = false := by
  rcases coreStep_next h with ⟨e, rfl⟩ | ⟨bs, _, rfl⟩
  · refine ⟨rfl, ?_⟩
    simp only [State.completeErr_status]
    rcases e with _ | _ | _ | _ | _ | _ | _ | c | _ | _ <;> first | decide | (cases c <;> decide)
  · exact ⟨rfl, by show statusDone statusOk = true; decide, by show statusBusy statusOk = false; decide⟩

end Sys2Proof.Machine
end

