-- ==== Sys2Proof/Laws/Units.lean ====
section
/-! SUPPORT. Lemmas about the decoder's fields and the functions the commands compute. -/

namespace Sys2Proof.Machine

/-- The field RSVD as a number. -/
theorem rsvdField_toNat (w : Word) : (rsvdField w).toNat = w.toNat / 64 := by
  have := w.isLt
  simp [rsvdField, Nat.shiftRight_eq_div_pow]; omega

/-- The field SEL as a number. -/
theorem selField_toNat (w : Word) : (selField w).toNat = w.toNat / 16 % 4 := by
  simp [selField, Nat.shiftRight_eq_div_pow]

/-- The field OP as a number. -/
theorem opField_toNat (w : Word) : (opField w).toNat = w.toNat % 16 := by
  simp [opField]

/-- A chain of two stages that succeeds. -/
theorem except_bind_ok {α β : Type} {r : Except Err α} {f : α → Except Err β} {b : β} (h : r.bind f = .ok b) : ∃ a, r = .ok a ∧ f a = .ok b := by
  cases r with
  | error e => cases h
  | ok a => exact ⟨a, rfl, h⟩

/-- A stage whose mapped result succeeds. -/
theorem except_map_ok {α β : Type} {r : Except Err α} {f : α → β} {b : β} (h : r.map f = .ok b) : ∃ a, r = .ok a ∧ f a = b := by
  cases r with
  | error e => cases h
  | ok a => injection h with h; exact ⟨a, rfl, h⟩

/-- The search finds the least index of the pair. -/
theorem findPair_some (a b : Byte) (l : List Byte) (i : Nat) : findPair a b l = some i ↔ FirstPair a b l 0 i := by
  induction l generalizing i with
  | nil => simp [findPair, FirstPair]
  | cons x l ih =>
    cases l with
    | nil => simp [findPair, FirstPair]
    | cons y l =>
      rw [findPair]
      by_cases h : x = a ∧ y = b
      · rw [if_pos h]
        constructor
        · intro hi; cases hi
          exact ⟨⟨Nat.zero_le _, by simp [h.1], by simp [h.2]⟩, fun j _ hj => absurd hj (by omega)⟩
        · rintro ⟨_, hmin⟩
          cases i with
          | zero => rfl
          | succ i => exact absurd ⟨by simp [h.1], by simp [h.2]⟩ (hmin 0 (by omega) (by omega))
      · rw [if_neg h]
        cases i with
        | zero =>
          constructor
          · intro h'; cases hf : findPair a b (y :: l) <;> rw [hf] at h' <;> simp at h'
          · rintro ⟨⟨_, h1, h2⟩, _⟩; exact absurd ⟨by simpa using h1, by simpa using h2⟩ h
        | succ i =>
          have : (findPair a b (y :: l)).map (· + 1) = some (i + 1) ↔ findPair a b (y :: l) = some i := by
            cases findPair a b (y :: l) <;> simp
          rw [this, ih]
          constructor
          · rintro ⟨⟨_, h1, h2⟩, hmin⟩
            refine ⟨⟨Nat.zero_le _, h1, h2⟩, fun j _ hj => ?_⟩
            cases j with
            | zero => simpa using h
            | succ j => exact hmin j (by omega) (by omega)
          · rintro ⟨⟨_, h1, h2⟩, hmin⟩
            exact ⟨⟨Nat.zero_le _, h1, h2⟩, fun j _ hj => hmin (j + 1) (by omega) (by omega)⟩

/-- The search fails where the pair does not stand. -/
theorem findPair_none (a b : Byte) (l : List Byte) : findPair a b l = none ↔ NoPair a b l 0 := by
  constructor
  · intro h j _ hj
    -- least
    have hex : ∃ j, l[j]? = some a ∧ l[j + 1]? = some b := ⟨j, hj⟩
    have := (findPair_some a b l (Nat.find hex)).2 ⟨⟨Nat.zero_le _, Nat.find_spec hex⟩, fun k _ hk => Nat.find_min hex hk⟩
    rw [h] at this; cases this
  · intro h
    cases hf : findPair a b l with
    | none => rfl
    | some i => exact absurd ((findPair_some a b l i).1 hf).1.2 (h i (Nat.zero_le _))

/-- A search from an index on. -/
theorem firstPair_drop (a b : Byte) (l : List Byte) (s k : Nat) : FirstPair a b (l.drop s) 0 k ↔ FirstPair a b l s (s + k) := by
  unfold FirstPair
  simp only [List.getElem?_drop]
  constructor
  · rintro ⟨⟨_, h1, h2⟩, hm⟩
    refine ⟨⟨by omega, h1, h2⟩, fun j hj hjk => ?_⟩
    have := hm (j - s) (by omega) (by omega)
    rwa [show s + (j - s) = j by omega, show s + (j - s + 1) = j + 1 by omega] at this
  · rintro ⟨⟨_, h1, h2⟩, hm⟩
    exact ⟨⟨by omega, h1, h2⟩, fun j _ hj => hm (s + j) (by omega) (by omega)⟩

/-- A failing search from an index on. -/
theorem noPair_drop (a b : Byte) (l : List Byte) (s : Nat) : NoPair a b (l.drop s) 0 ↔ NoPair a b l s := by
  unfold NoPair
  simp only [List.getElem?_drop]
  constructor
  · intro h j hj
    have := h (j - s) (by omega)
    rwa [show s + (j - s) = j by omega, show s + (j - s + 1) = j + 1 by omega] at this
  · exact fun h j _ => h (s + j) (by omega)

/-- The value of a full group is the formula of 41_base85.md R122. -/
theorem groupValue_eq_ref (g : List Nat) (h : g.length = 5) : groupValue g = groupValueRef g := by
  match g, h with
  | [a, b, c, d, e], _ => simp [groupValue, groupValueRef]; ring

/-- The digit characters as numbers. -/
theorem isDigit_iff (c : Byte) : isDigit c = true ↔ 33 ≤ c.toNat ∧ c.toNat ≤ 117 := by simp [isDigit]

/-- A byte has no bit above 7. -/
theorem testBit_byte_high (b : Byte) (k : Nat) (h : 8 ≤ k) : b.toNat.testBit k = false :=
  Nat.testBit_lt_two_pow (Nat.lt_of_lt_of_le b.isLt (Nat.pow_le_pow_right (by decide) h))

/-- The accumulator of a group, bit by bit (44_bitpack.md R191). -/
theorem testBit_packAccFrom (g : List Byte) (i p : Nat) (h : i + g.length ≤ 8) :
    (packAccFrom i g).testBit p = (decide (p < 7 * (8 - i)) && (g.getD (7 - p / 7 - i) 0#8).toNat.testBit (p % 7 + 1)) := by
  induction g generalizing i with
  | nil => simp [packAccFrom]
  | cons b g ih =>
    simp only [List.length_cons] at h
    rw [packAccFrom, Nat.testBit_or, ih (i + 1) (by omega), Nat.testBit_shiftLeft, Nat.testBit_shiftRight]
    rcases Nat.lt_trichotomy (p / 7) (7 - i) with hp | hp | hp
    · rw [decide_eq_false (by omega : ¬ 7 * (7 - i) ≤ p), decide_eq_true (by omega : p < 7 * (8 - (i + 1))), decide_eq_true (by omega : p < 7 * (8 - i)),
        show 7 - p / 7 - i = (7 - p / 7 - (i + 1)) + 1 by omega]
      simp
    · rw [decide_eq_true (by omega : 7 * (7 - i) ≤ p), decide_eq_false (by omega : ¬ p < 7 * (8 - (i + 1))), decide_eq_true (by omega : p < 7 * (8 - i)),
        show 7 - p / 7 - i = 0 by omega, show 1 + (p - 7 * (7 - i)) = p % 7 + 1 by omega]
      simp
    · rw [decide_eq_true (by omega : 7 * (7 - i) ≤ p), decide_eq_false (by omega : ¬ p < 7 * (8 - (i + 1))), decide_eq_false (by omega : ¬ p < 7 * (8 - i)),
        testBit_byte_high b _ (by omega)]
      simp

/-- The length of a sequence of 7-byte blocks. -/
theorem length_flatMap_blocks (n : Nat) (f : Nat → List Byte) (hf : ∀ q, (f q).length = 7) : ((List.range n).flatMap f).length = 7 * n := by
  induction n with
  | zero => rfl
  | succ n ih => simp [List.range_succ, ih, hf]; omega

/-- A byte of a sequence of 7-byte blocks. -/
theorem getElem_flatMap_blocks (n : Nat) (f : Nat → List Byte) (hf : ∀ q, (f q).length = 7) (q k : Nat) (hq : q < n) (hk : k < 7) :
    ((List.range n).flatMap f)[7 * q + k]? = (f q)[k]? := by
  induction n with
  | zero => omega
  | succ n ih =>
    rw [List.range_succ, List.flatMap_append]
    have hl := length_flatMap_blocks n f hf
    by_cases h : q < n
    · rw [List.getElem?_append_left (by rw [hl]; omega), ih h]
    · have : q = n := by omega
      subst this
      rw [List.getElem?_append_right (by rw [hl]; omega), hl]; simp

/-- A bit of a serialized 56-bit number. -/
theorem getLsbD_be (v k r : Nat) (hk : k < 7) (hr : r < 8) : ((be v 7).getD k 0#8).getLsbD r = v.testBit (8 * (6 - k) + r) := by
  rw [List.getD_eq_getElem?_getD, be_getElem? v 7 k hk]
  show (BitVec.ofNat 8 _).getLsbD r = _
  rw [BitVec.getLsbD_ofNat, Nat.testBit_shiftRight]; simp [hr]

end Sys2Proof.Machine
end

