-- ==== Sys2Proof/Tests/Slice0.lean ====
section
/-! SUPPORT. The model's own tests: the WellFormed smoke tests, every command's word written out from 30_encoding.md R70 to R74, one or two
vectors of 95_test_vectors.md for each command, the host port's table, and for every obligation with hypotheses a witness that meets them. The
expected results come from spec/, as the comments say. -/

open Host Sys2Proof.Machine

namespace Sys2Proof.Tests

/-! ### Helpers -/

def bytes (l : List Nat) : List Byte := l.map (BitVec.ofNat 8)

/-- An idle block with the given capacities and `bs` loaded. -/
def loaded (maxIn maxOut : Nat) (bs : List Byte) : State :=
  { State.reset with
    cfg := { maxIn := maxIn, maxOut := maxOut, base := 0x400000 }
    inLen := BitVec.ofNat 32 bs.length
    inMem := Memory.ofBytes bs }

/-- The same with a command issued and its LATENCY over. -/
def running (i : Instr) (s : State) : State := s.withFetchWord 32 (encode i).toNat

/-- The same with an arbitrary word issued. -/
def runningWord (w : Nat) (s : State) : State := s.withFetchWord 32 w

/-- STATUS and the output of a step that answers a next state. -/
def result (o : Outcome State Fault Refusal) : Option (Word × List Byte) :=
  match o with
  | .next t => some (t.status, t.output.getD [])
  | _ => none

/-- Whether a step faults. -/
def faults (o : Outcome State Fault Refusal) : Bool :=
  match o with
  | .fault .unwrittenInput => true
  | _ => false

/-- "noise<~9jqo^~>noise" (95_test_vectors.md S1). -/
def noise : List Byte :=
  bytes [0x6E, 0x6F, 0x69, 0x73, 0x65, 0x3C, 0x7E, 0x39, 0x6A, 0x71, 0x6F, 0x5E, 0x7E, 0x3E, 0x6E, 0x6F, 0x69, 0x73, 0x65]

/-- "<~bJO~>" (95_test_vectors.md P2). -/
def carrierP2 : List Byte := bytes [0x3C, 0x7E, 0x62, 0x4A, 0x4F, 0x7E, 0x3E]

/-- "<~<?_GVjOA^,/OKF~>" (95_test_vectors.md P3). -/
def carrierP3 : List Byte :=
  bytes [0x3C, 0x7E, 0x3C, 0x3F, 0x5F, 0x47, 0x56, 0x6A, 0x4F, 0x41, 0x5E, 0x2C, 0x2F, 0x4F, 0x4B, 0x46, 0x7E, 0x3E]

/-- "<~zzz~>" (95_test_vectors.md section 2.6). -/
def zzz : List Byte := bytes [0x3C, 0x7E, 0x7A, 0x7A, 0x7A, 0x7E, 0x3E]

theorem hasInput_loaded (m o : Nat) (bs : List Byte) (h : bs.length ≤ m) (hl : bs.length < 2 ^ 32) : (loaded m o bs).HasInput bs where
  len := by simpa [loaded] using hl
  inRange := h
  bytes := fun i _ => Memory.read_ofBytes bs i

theorem succeeds_of_unit {i : Instr} {s : State} {x bs : List Byte} (hi : s.HasInput x) (hu : unitOf s.cfg.maxOut i x = .ok bs)
    (hl : bs.length ≤ s.cfg.maxOut) (hb : bs.length < 2 ^ 32) : ∃ t, exec i s = .next t ∧ Succeeds s t bs :=
  ⟨s.completeOk bs, by rw [exec_eq_runUnit, runUnit_of_hasInput hi, hu]; simp only [Except.bind, fitsOut_of_le hl, State.complete],
    s.succeeds_completeOk bs hb⟩

/-! ### WellFormed smoke tests -/

theorem test_wf_accepts_eight_words : legalWords.all legalWord = true ∧ legalWords.length = 8 := by decide
theorem test_wf_refuses_reserved_bits : legalWord 0x00000040#32 = false ∧ legalWord 0x80000001#32 = false := by decide
theorem test_wf_refuses_bad_op : legalWord 0x00000000#32 = false ∧ legalWord 0x00000007#32 = false := by decide
theorem test_wf_refuses_bad_sel : legalWord 0x00000011#32 = false ∧ legalWord 0x00000036#32 = false := by decide
theorem test_wf_refuses_maxIn : Config.wf ⟨0, 1, 0⟩ = false ∧ Config.wf ⟨0x100001, 1, 0⟩ = false := by decide
theorem test_wf_refuses_maxOut : Config.wf ⟨1, 0, 0⟩ = false ∧ Config.wf ⟨1, 0x100001, 0⟩ = false := by decide
theorem test_wf_refuses_base : Config.wf ⟨1, 1, 0x200000⟩ = false := by decide
theorem test_wf_accepts_bounds : Config.wf ⟨1, 1, 0⟩ = true ∧ Config.wf ⟨0x100000, 0x100000, 0x400000⟩ = true := by decide
/-- A command has no operand, so no command is ill-formed (30_encoding.md R73); the ill-formed words are refused above. -/
theorem test_wf_every_command (i : Instr) : i.wf = true := by cases i <;> rfl

/-! ### Decoding: one word for every constructor, written out as RSVD, SEL, OP (30_encoding.md R70 to R74) -/

theorem test_decode_extract : decode 0b00000000000000000000000000_00_0001#32 = .ok .extract := by decide
theorem test_decode_b85dec : decode 0b00000000000000000000000000_00_0010#32 = .ok .b85dec := by decide
theorem test_decode_xorrot : decode 0b00000000000000000000000000_00_0011#32 = .ok .xorrot := by decide
theorem test_decode_parity : decode 0b00000000000000000000000000_00_0100#32 = .ok .parity := by decide
theorem test_decode_pack : decode 0b00000000000000000000000000_00_0101#32 = .ok .pack := by decide
theorem test_decode_layerNone : decode 0b00000000000000000000000000_00_0110#32 = .ok .layerNone := by decide
theorem test_decode_layerXor : decode 0b00000000000000000000000000_01_0110#32 = .ok .layerXor := by decide
theorem test_decode_layerParpack : decode 0b00000000000000000000000000_10_0110#32 = .ok .layerParpack := by decide
/-- 95_test_vectors.md section 2.6, "Command words". -/
theorem test_decode_bad_op : decode 0x00000000#32 = .error .badOp ∧ decode 0x00000007#32 = .error .badOp ∧
    decode 0x0000000F#32 = .error .badOp ∧ decode 0x00000017#32 = .error .badOp ∧ decode 0x00000030#32 = .error .badOp := by decide
theorem test_decode_bad_sel : decode 0x00000011#32 = .error .badSel ∧ decode 0x00000025#32 = .error .badSel ∧
    decode 0x00000036#32 = .error .badSel := by decide
theorem test_decode_reserved_bits : decode 0x00000040#32 = .error .reservedBits ∧ decode 0x00000056#32 = .error .reservedBits ∧
    decode 0x80000001#32 = .error .reservedBits := by decide
theorem test_decodeTableWord : decodeTableWord 32 0x26 = some .layerParpack ∧ decodeTableWord 32 0x40 = none := by decide

/-! ### The commands (95_test_vectors.md) -/

/-- S1. -/
theorem test_extract_noise : result (step (running .extract (loaded 32 32 noise))) =
    some (0x2#32, bytes [0x3C, 0x7E, 0x39, 0x6A, 0x71, 0x6F, 0x5E, 0x7E, 0x3E]) := by decide
/-- Section 2.1: "<~>", the overlap case. -/
theorem test_extract_overlap : result (step (running .extract (loaded 32 32 (bytes [0x3C, 0x7E, 0x3E])))) =
    some (0x2#32, bytes [0x3C, 0x7E, 0x3E]) := by decide
/-- Section 2.2: `9jqo` gives "Man", which a pad of 0 would not. -/
theorem test_b85dec_man : result (step (running .b85dec (loaded 32 32 (bytes [0x3C, 0x7E, 0x39, 0x6A, 0x71, 0x6F, 0x7E, 0x3E])))) =
    some (0x2#32, bytes [0x4D, 0x61, 0x6E]) := by decide
/-- Section 2.2: `s8W-"` is one above the largest group value. -/
theorem test_b85dec_overflow :
    result (step (running .b85dec (loaded 32 32 (bytes [0x3C, 0x7E, 0x73, 0x38, 0x57, 0x2D, 0x22, 0x7E, 0x3E])))) =
    some (0x522#32, []) := by decide
/-- Section 2.3. -/
theorem test_xorrot_bytes : result (step (running .xorrot (loaded 32 32 (bytes [0x00, 0xFF, 0x01, 0x80])))) =
    some (0x2#32, bytes [0xAA, 0x55, 0x2A, 0xEA]) := by decide
/-- Section 2.6: the empty input right after reset. -/
theorem test_xorrot_empty : result (step (State.reset.withFetchWord 32 3)) = some (0x2#32, []) := by decide
/-- Section 2.4. -/
theorem test_parity_bytes : result (step (running .parity (loaded 32 32 (bytes [0x00, 0x01, 0x03, 0xFF, 0x80])))) =
    some (0x2#32, bytes [0x00, 0x03, 0xFF]) := by decide
/-- Section 2.4: no valid byte is a success. -/
theorem test_parity_none : result (step (running .parity (loaded 32 32 (bytes [0x01, 0x02, 0x04, 0x08])))) = some (0x2#32, []) := by
  decide
/-- Section 2.5: a full group and a short one. -/
theorem test_pack_groups :
    result (step (running .pack (loaded 32 32 (bytes [0x00, 0x02, 0x04, 0x06, 0x08, 0x0A, 0x0C, 0x0E, 0x10])))) =
    some (0x2#32, bytes [0x00, 0x04, 0x10, 0x30, 0x81, 0x43, 0x07, 0x10, 0, 0, 0, 0, 0, 0]) := by decide
/-- Section 2.6: 7 bytes do not fit 6. -/
theorem test_pack_outRange : result (step (running .pack (loaded 16 6 (bytes [0x01])))) = some (0x242#32, []) := by decide
/-- Section 2.6: MAX_OUT 9 and 8 on the same carrier. -/
theorem test_layerNone_fits : result (step (running .layerNone (loaded 32 9 noise))) = some (0x2#32, bytes [0x4D, 0x61, 0x6E, 0x20]) := by
  decide
theorem test_layerNone_outRange : result (step (running .layerNone (loaded 32 8 noise))) = some (0x242#32, []) := by decide
/-- P2. -/
theorem test_layerXor_p2 : result (step (running .layerXor (loaded 7 7 carrierP2))) = some (0x2#32, bytes [0x4F, 0x4B]) := by decide
/-- Section 2.6: "x~>". -/
theorem test_layerXor_startMissing : result (step (running .layerXor (loaded 16 16 (bytes [0x78, 0x7E, 0x3E])))) =
    some (0x112#32, []) := by decide
/-- P3. -/
theorem test_layerParpack_p3 : result (step (running .layerParpack (loaded 18 18 carrierP3))) =
    some (0x2#32, bytes [0x54, 0x44, 0x4F, 0x2D, 0x4F, 0x4B, 0x21]) := by decide
/-- Section 2.6: 12 valid zero bytes pack to 14. -/
theorem test_layerParpack_outRange : result (step (running .layerParpack (loaded 16 12 zzz))) = some (0x242#32, []) := by decide
/-- Section 2.6: IN_RANGE before any byte is read, and the command check before IN_RANGE. -/
theorem test_inRange : result (step (running .extract { loaded 16 16 [] with inLen := 17#32 })) = some (0x142#32, []) ∧
    result (step (runningWord 7 { loaded 16 16 [] with inLen := 17#32 })) = some (0x232#32, []) := by decide
/-- Section 2.6: IN_LEN 1 with a NONE byte. -/
theorem test_unwritten : faults (step (running .xorrot { loaded 16 16 [] with inLen := 1#32 })) = true := by decide

/-- Section 2.6: the values of STATUS at completion. -/
theorem test_status_values : (statusErr .startMissing, statusErr .endMissing) = (0x112#32, 0x212#32) ∧
    [Err.bracket, .badChar, .zInGroup, .finalLen1, .overflow].map statusErr = [0x122#32, 0x222#32, 0x322#32, 0x422#32, 0x522#32] ∧
    [Err.illegal .reservedBits, .illegal .badOp, .illegal .badSel].map statusErr = [0x132#32, 0x232#32, 0x332#32] ∧
    (statusErr .inRange, statusErr .outRange) = (0x142#32, 0x242#32) := by decide
/-- Section 2.2: the payloads "<~v~>", "<~9jz~>" and "<~9~>". -/
theorem test_decode_error_names : b85Decode (bytes [0x3C, 0x7E, 0x76, 0x7E, 0x3E]) = .error .badChar ∧
    b85Decode (bytes [0x3C, 0x7E, 0x39, 0x6A, 0x7A, 0x7E, 0x3E]) = .error .zInGroup ∧
    b85Decode (bytes [0x3C, 0x7E, 0x39, 0x7E, 0x3E]) = .error .finalLen1 := by decide

/-! ### The host port (95_test_vectors.md section 2.6, "Host-port behaviour") -/

def answer (a : Access) (s : State) : Option Response := (performAccess a s).responses.head?

theorem test_port_bus_errors : ∀ a ∈ [Access.write 0x400004 4 0, .write 0x40000C 4 5, .write 0x600000 1 1, .read 0x400004 1,
    .read 0x400002 4, .read 0x400010 4, .read 0x500000 4, .read 0x500010 1, .read 0x3FFFFC 4], answer a (loaded 16 16 []) = some .busError := by
  decide
theorem test_port_status_after_reset : answer (.read 0x400004 4) (loaded 16 16 []) = some (.word 0#32) := by decide
theorem test_port_busy_write_ignored :
    (performAccess (.write 0x500000 1 0x41) (running .xorrot (loaded 16 16 (bytes [0x07])))).inMem = [(0, 0x07#8)] := by decide
theorem test_port_in_len_any_value :
    (performAccess (.write 0x400008 4 0xFFFFFFFF) (loaded 16 16 [])).inLen = 0xFFFFFFFF#32 := by decide

/-! ### Witnesses: for each obligation with hypotheses, states and operands that meet them, every clause at a boundary -/

/-- A command waiting two host-port steps for its completion, with a read and a write in the script. -/
def waiting : State :=
  { running .xorrot (loaded 16 16 (bytes [0x07])) with
    remaining := 2
    inputs := [.access (.read 0x400004 4), .access (.write 0x500000 1 0x41)] }

/-- An idle block with two bytes of output, three capacities of input. -/
def completed : State := { loaded 3 2 [] with outLen := 2#32, outMem := Memory.ofBytes (bytes [0x4F, 0x4B]), status := 0x2#32 }

theorem witness_DecodeEncodeAgree : decode 0x00000026#32 = .ok .layerParpack := by decide

/-- The boundary words of each cause. -/
theorem witness_IllegalWordClassification : (0x40#32 : Word).toNat / 64 ≠ 0 ∧
    ((0x3F#32 : Word).toNat / 64 = 0 ∧ 7 ≤ (0x3F#32 : Word).toNat % 16) ∧ ((0x30#32 : Word).toNat / 64 = 0 ∧ (0x30#32 : Word).toNat % 16 = 0) ∧
    ((0x11#32 : Word).toNat / 64 = 0 ∧ (0x11#32 : Word).toNat / 16 % 4 ≠ 0) ∧ ((0x36#32 : Word).toNat % 16 = 6 ∧ (0x36#32 : Word).toNat / 16 % 4 = 3) := by
  decide

theorem witness_StepRunsLatchedCommand : let s := running .pack (loaded 16 16 [])
    s.phase = .busy ∧ s.remaining = 0 ∧ decode s.latch = .ok .pack ∧ decode 0x5#32 = .ok .pack := by decide

theorem witness_IllegalWordsCompleteWithTheirCause_reserved : let s := runningWord 0x40 (loaded 16 16 [])
    s.phase = .busy ∧ s.remaining = 0 ∧ s.latch.toNat / 64 ≠ 0 := by decide
theorem witness_IllegalWordsCompleteWithTheirCause_op0 : let s := runningWord 0x30 (loaded 16 16 [])
    s.phase = .busy ∧ s.remaining = 0 ∧ s.latch.toNat / 64 = 0 ∧ s.latch.toNat % 16 = 0 := by decide
theorem witness_IllegalWordsCompleteWithTheirCause_op7 : let s := runningWord 0x17 (loaded 16 16 [])
    s.phase = .busy ∧ s.remaining = 0 ∧ s.latch.toNat / 64 = 0 ∧ 7 ≤ s.latch.toNat % 16 := by decide
theorem witness_IllegalWordsCompleteWithTheirCause_sel : let s := runningWord 0x15 (loaded 16 16 [])
    s.phase = .busy ∧ s.remaining = 0 ∧ s.latch.toNat / 64 = 0 ∧ 1 ≤ s.latch.toNat % 16 ∧ s.latch.toNat % 16 ≤ 5 ∧
      s.latch.toNat / 16 % 4 ≠ 0 := by decide
theorem witness_IllegalWordsCompleteWithTheirCause_sel3 : let s := runningWord 0x36 (loaded 16 16 [])
    s.phase = .busy ∧ s.remaining = 0 ∧ s.latch.toNat / 64 = 0 ∧ s.latch.toNat % 16 = 6 ∧ s.latch.toNat / 16 % 4 = 3 := by decide

/-- The three outcomes of `Execute`: unwritten input, a result, an error. -/
theorem witness_CompletionRefinesExecute : let s := running .xorrot { loaded 16 16 [] with inLen := 1#32 }
    s.phase = .busy ∧ s.remaining = 0 ∧ s.cfg.wf = true ∧ executeRef s.cfg s.latch.toNat s.inLen.toNat s.inMem = none ∧
    executeRef s.cfg s.latch.toNat 0 s.inMem = some (.ok []) ∧ executeRef s.cfg 1 0 s.inMem = some (.error .startMissing) := by decide

theorem witness_CmdWriteIssues_idle : let s := { loaded 16 16 [] with inputs := [.access (.write 0x400000 4 5)], schedule := [3] }
    s.cfg.wf = true ∧ s.phase = .idle ∧ s.schedule.headD 0 = 3 ∧ s.inputs = .access (.write (s.cfg.base + 0x000000) 4 (5#32 : Word).toNat) :: [] := by decide
theorem witness_CmdWriteIssues_busy : waiting.cfg.wf = true ∧ waiting.phase = .busy := by decide

theorem witness_WaitingChangesNothing : waiting.phase = .busy ∧ waiting.remaining ≠ 0 ∧ ∀ ls, waiting.inputs ≠ .reset :: ls :=
  ⟨rfl, by decide, fun _ h => by cases h⟩

theorem witness_ResultIndependentOfLatency : waiting.phase = .busy ∧ .reset ∉ waiting.inputs := by decide

theorem witness_IssuedCommandCompletes : waiting.phase = .busy ∧ .reset ∉ waiting.inputs ∧ waiting.NoUnwritten :=
  ⟨rfl, by decide, .inr (.inr (by decide))⟩
/-- The other two ways a command cannot fault: an illegal word, and IN_LEN one above MAX_IN. -/
theorem witness_NoUnwritten_other : (runningWord 7 (loaded 16 16 [])).NoUnwritten ∧
    (running .pack { loaded 16 16 [] with inLen := 17#32 }).NoUnwritten :=
  ⟨.inl ⟨.badOp, by decide⟩, .inr (.inl (by decide))⟩

theorem witness_ResetInputResetsTheBlock_idle : let s := { loaded 16 16 [] with inputs := [.reset] }
    s.inputs = .reset :: [] ∧ s.phase = .idle := by decide
theorem witness_ResetInputResetsTheBlock_busy : let s := { waiting with inputs := [.reset] }
    s.inputs = .reset :: [] ∧ s.phase = .busy ∧ s.remaining ≠ 0 := by decide

theorem witness_EmptyInputResults : (loaded 16 16 []).inLen = 0#32 := by decide

/-- Accepted accesses at the ends of their ranges, and refused ones just outside. -/
theorem witness_BusErrorsAreExactlyTheRest : (loaded 3 2 []).cfg.wf = true ∧
    Accepted (loaded 3 2 []).cfg (.read 0x400000 4) ∧ Accepted (loaded 3 2 []).cfg (.read 0x500002 1) ∧
    Accepted (loaded 3 2 []).cfg (.read 0x600001 1) ∧ Accepted (loaded 3 2 []).cfg (.write 0x500002 1 7) ∧
    ¬ Accepted (loaded 3 2 []).cfg (.read 0x500003 1) ∧ ¬ Accepted (loaded 3 2 []).cfg (.read 0x600002 1) ∧
    ¬ Accepted (loaded 3 2 []).cfg (.write 0x600000 1 7) ∧ ¬ Accepted (loaded 3 2 []).cfg (.write 0x400004 4 7) ∧
    ¬ Accepted (loaded 3 2 []).cfg (.read 0x7FFFFF 1) ∧ (loaded 3 2 []).cfg.base ≤ 0x400004 ∧
    0x7FFFFF < (loaded 3 2 []).cfg.base + 0x400000 := by
  refine ⟨by decide, ?_, ?_, ?_, ?_, ?_, ?_, ?_, ?_, ?_, ?_, ?_⟩ <;> simp [Accepted, loaded]

theorem witness_OutsideTheWindowIsABusError : accessAddr (.read 0x3FFFFC 4) < (loaded 3 2 []).cfg.base ∧
    (loaded 3 2 []).cfg.base + 0x400000 ≤ accessAddr (.write 0x800000 4 1) := by decide

theorem witness_HostReadsReturn_inputs : let s := loaded 3 2 (bytes [0x01, 0x02, 0x03])
    s.cfg.wf = true ∧ s.phase = .idle ∧ 2 < s.cfg.maxIn ∧ s.inMem.read 2 = some 0x03#8 ∧ (loaded 3 2 []).inMem.read 2 = none := by decide
theorem witness_HostReadsReturn_outputs : completed.cfg.wf = true ∧ completed.phase = .idle ∧ 1 < completed.cfg.maxOut ∧
    1 < completed.outLen.toNat ∧ completed.outMem.read 1 = some 0x4B#8 ∧ (loaded 3 2 []).outLen.toNat ≤ 1 := by decide
theorem witness_HostReadsReturn_busy : waiting.cfg.wf = true ∧ waiting.phase = .busy ∧ 15 < waiting.cfg.maxOut := by decide

theorem witness_BusyWritesAreIgnored : waiting.cfg.wf = true ∧ waiting.phase = .busy ∧ 15 < waiting.cfg.maxIn ∧ 15 < waiting.cfg.maxOut := by
  decide

theorem witness_IdleWritesStore : (loaded 3 2 []).cfg.wf = true ∧ (loaded 3 2 []).phase = .idle ∧ 2 < (loaded 3 2 []).cfg.maxIn := by decide

/-- Inputs that fill IN_MEM and results that fill OUT_MEM, for XORROT, PARITY and PACK. -/
theorem witness_XorrotCompletes : (loaded 2 2 (bytes [0x00, 0xFF])).cfg.wf = true ∧
    (loaded 2 2 (bytes [0x00, 0xFF])).HasInput (bytes [0x00, 0xFF]) ∧ (bytes [0x00, 0xFF]).length ≤ (loaded 2 2 (bytes [0x00, 0xFF])).cfg.maxOut :=
  ⟨by decide, hasInput_loaded _ _ _ (by decide) (by decide), by decide⟩

theorem witness_XorRotateLanes : 1 < (bytes [0x00, 0xFF]).length ∧ 1 < (xorRotate (bytes [0x00, 0xFF])).length := by decide

theorem witness_ParityCompletes : let x := bytes [0x00, 0x01, 0x03]
    (loaded 3 2 x).cfg.wf = true ∧ (loaded 3 2 x).HasInput x ∧
    (x.filter fun b => decide ((List.range 7).countP (fun i => b.getLsbD (i + 1)) % 2 = b.toNat % 2)).length ≤ (loaded 3 2 x).cfg.maxOut :=
  ⟨by decide, hasInput_loaded _ _ _ (by decide) (by decide), by decide⟩

theorem witness_ParityFilterLaws : 0x03#8 ∈ parityFilter (bytes [0x01, 0x03]) := by decide

theorem witness_PackCompletes : let x := bytes [0xFF, 0xFF, 0xFF]
    (loaded 3 7 x).cfg.wf = true ∧ (loaded 3 7 x).HasInput x ∧ 7 * ((x.length + 7) / 8) ≤ (loaded 3 7 x).cfg.maxOut ∧
      0 < (x.length + 7) / 8 ∧ 55 < 56 :=
  ⟨by decide, hasInput_loaded _ _ _ (by decide) (by decide), by decide, by decide, by decide⟩

theorem witness_BitPackLaws : (List.replicate 8 0x02#8).length % 8 = 0 ∧
    (bytes [0x02]).map (fun b => b.toNat / 2) = (bytes [0x03]).map (fun b => b.toNat / 2) ∧
    bitPack (List.replicate 8 0x02#8) = bitPack (List.replicate 8 0x03#8) ∧ (List.replicate 7 0x00#8).length = 7 := by decide

theorem witness_ShortGroupLowBitsZero : 1 ≤ (List.replicate 9 0xFF#8).length % 8 ∧ 1 ≤ (List.replicate 7 0xFF#8).length % 8 := by decide

theorem witness_ExtractCompletes_noStart : (loaded 3 3 (bytes [0x78, 0x7E, 0x3E])).HasInput (bytes [0x78, 0x7E, 0x3E]) ∧
    NoPair 0x3C#8 0x7E#8 (bytes [0x78, 0x7E, 0x3E]) 0 :=
  ⟨hasInput_loaded _ _ _ (by decide) (by decide), (findPair_none _ _ _).1 (by decide)⟩
/-- "x~>y<~z": the only end marker lies before the start marker. -/
theorem witness_ExtractCompletes_noEnd : FirstPair 0x3C#8 0x7E#8 (bytes [0x78, 0x7E, 0x3E, 0x79, 0x3C, 0x7E, 0x7A]) 0 4 ∧
    NoPair 0x7E#8 0x3E#8 (bytes [0x78, 0x7E, 0x3E, 0x79, 0x3C, 0x7E, 0x7A]) 4 :=
  ⟨(findPair_some _ _ _ _).1 (by decide), (noPair_drop _ _ _ _).1 ((findPair_none _ _ _).1 (by decide))⟩
/-- "<~>": the end marker overlaps the start marker; the payload has 3 bytes, which fit 3 and do not fit 2. -/
theorem witness_ExtractCompletes_overlap : FirstPair 0x3C#8 0x7E#8 (bytes [0x3C, 0x7E, 0x3E]) 0 0 ∧
    FirstPair 0x7E#8 0x3E#8 (bytes [0x3C, 0x7E, 0x3E]) 0 1 ∧
    ((((bytes [0x3C, 0x7E, 0x3E]).drop 0).take (1 + 2 - 0)).filter
      fun b => decide (b ∉ [0x09#8, 0x0A#8, 0x0B#8, 0x0C#8, 0x0D#8, 0x20#8])).length = 3 :=
  ⟨(findPair_some _ _ _ _).1 (by decide), (findPair_some _ _ _ _).1 (by decide), by decide⟩

theorem witness_ExtractReturnsThePayload : NoPair 0x3C#8 0x7E#8 (bytes [0x61, 0x3C]) 0 ∧
    NoPair 0x7E#8 0x3E#8 (0x7E#8 :: bytes [0x39, 0x20, 0x7E]) 0 :=
  ⟨(findPair_none _ _ _).1 (by decide), (findPair_none _ _ _).1 (by decide)⟩

theorem witness_ExtractedPayloadShape : extract (bytes [0x3C, 0x7E, 0x3E]) = .ok (bytes [0x3C, 0x7E, 0x3E]) ∧
    extract (bytes [0x3C, 0x7E, 0x7E, 0x3E]) = .ok (bytes [0x3C, 0x7E, 0x7E, 0x3E]) := by decide

/-- A result of 4 bytes that fits 4 and one of 12 bytes that does not fit 8, and an error. -/
theorem witness_B85decCompletes : (loaded 7 8 zzz).cfg.wf = true ∧ (loaded 7 8 zzz).HasInput zzz ∧
    b85DecodeRef zzz = .ok (List.replicate 12 0x00#8) ∧
    b85DecodeRef (bytes [0x3C, 0x7E, 0x7A, 0x7E, 0x3E]) = .ok (List.replicate 4 0x00#8) ∧ b85DecodeRef [] = .error .bracket :=
  ⟨by decide, hasInput_loaded _ _ _ (by decide) (by decide), by decide, by decide, by decide⟩

theorem witness_DecodeErrorOrder_bracket : (bytes [0x3C, 0x7E, 0x3E]).length < 4 ∧
    (bytes [0x3C, 0x7A, 0x7E, 0x3E]).take 2 ≠ [0x3C#8, 0x7E#8] ∧ (bytes [0x3C, 0x7E, 0x7E, 0x3C]).drop 2 ≠ [0x7E#8, 0x3E#8] := by decide
/-- A part of the body that the scan passes with 0, 1, 2 and 4 digits pending. -/
theorem witness_DecodeErrorOrder_pending : decodeLoop ([], []) [] = .ok ([], []) ∧
    decodeLoop ([], []) (bytes [0x39]) = .ok ([], [24]) ∧ decodeLoop ([], []) (bytes [0x39, 0x6A]) = .ok ([], [24, 73]) ∧
    decodeLoop ([], []) (bytes [0x73, 0x38, 0x57, 0x2D]) = .ok ([], [82, 23, 54, 12]) := by decide
/-- The next character at the ends of its ranges: 32, 118, 121, 123 and 255 are bad, 122 is `z`, 33 and 117 are digits. -/
theorem witness_DecodeErrorOrder_char : (∀ c ∈ [32, 118, 121, 123, 255], c < 33 ∨ (117 < c ∧ c ≠ 122)) ∧ 33 ≤ 33 ∧ 117 ≤ 117 := by decide
/-- `s8W-"` is one above 0xFFFFFFFF, `s8W-!` is 0xFFFFFFFF; `s8` overflows with its pad and `9j` does not. -/
theorem witness_DecodeErrorOrder_value : groupValueRef [82, 23, 54, 12, 1] = 0x100000000 ∧ groupValueRef [82, 23, 54, 12, 0] = 0xFFFFFFFF ∧
    0xFFFFFFFF < groupValueRef ([82, 23] ++ List.replicate 3 84) ∧ groupValueRef ([24, 73] ++ List.replicate 3 84) ≤ 0xFFFFFFFF := by decide

theorem witness_DecodedLength : b85Decode ([0x3C#8, 0x7E#8] ++ bytes [0x7A, 0x39, 0x6A] ++ [0x7E#8, 0x3E#8]) =
    .ok (bytes [0x00, 0x00, 0x00, 0x00, 0x4D]) := by decide

/-- The three selectors: a result that fits 14, one of 12 bytes that does not fit 8, and an error. -/
theorem witness_LayerCommandsComplete : (loaded 7 14 zzz).cfg.wf = true ∧ (loaded 7 14 zzz).HasInput zzz ∧
    layerRef 14 2 zzz = .ok (List.replicate 14 0x00#8) ∧ layerRef 8 0 zzz = .ok (List.replicate 12 0x00#8) ∧
    layerRef 8 1 zzz = .error .outRange :=
  ⟨by decide, hasInput_loaded _ _ _ (by decide) (by decide), by decide, by decide, by decide⟩

/-- "a", "<~9 jqo~>", "~>": a carrier whose payload encodes "Man". -/
def carrierMan : List Byte :=
  bytes [0x61] ++ [0x3C#8, 0x7E#8] ++ bytes [0x39, 0x20, 0x6A, 0x71, 0x6F] ++ [0x7E#8, 0x3E#8] ++ bytes [0x7E, 0x3E]

theorem witness_LayerDecodesCarriers :
    (loaded 12 8 carrierMan).cfg.wf = true ∧ (loaded 12 8 carrierMan).HasInput (bytes [0x61] ++ [0x3C#8, 0x7E#8] ++ bytes [0x39, 0x20, 0x6A, 0x71, 0x6F] ++ [0x7E#8, 0x3E#8] ++
      bytes [0x7E, 0x3E]) ∧ NoPair 0x3C#8 0x7E#8 (bytes [0x61]) 0 ∧
    (bytes [0x39, 0x20, 0x6A, 0x71, 0x6F]).head? ≠ some 0x3E#8 ∧
    (bytes [0x39, 0x20, 0x6A, 0x71, 0x6F]).filter (fun b => !isWhitespace b) = encodeBody (bytes [0x4D, 0x61, 0x6E]) ∧
    (encodeBody (bytes [0x4D, 0x61, 0x6E])).length + 4 ≤ (loaded 12 8 carrierMan).cfg.maxOut ∧ (bytes [0x4D, 0x61, 0x6E]).length ≤ 8 ∧
    (bitPack (parityFilter (bytes [0x4D, 0x61, 0x6E]))).length ≤ (loaded 12 8 carrierMan).cfg.maxOut :=
  ⟨by decide, hasInput_loaded _ _ _ (by decide) (by decide), (findPair_none _ _ _).1 (by decide), by decide, by decide, by decide,
    by decide, by decide⟩

theorem witness_LayerEqualsStagesChained_capacities : (loaded 18 18 carrierP3).cfg.wf = true ∧
    (loaded 18 18 carrierP3).cfg.maxOut ≤ (loaded 18 18 carrierP3).cfg.maxIn := by decide
theorem witness_LayerEqualsStagesChained_xor : ∃ t, exec .layerXor (loaded 18 18 carrierP2) = .next t ∧
    Succeeds (loaded 18 18 carrierP2) t (bytes [0x4F, 0x4B]) :=
  succeeds_of_unit (hasInput_loaded _ _ _ (by decide) (by decide)) (by decide) (by decide) (by decide)
theorem witness_LayerEqualsStagesChained_none : ∃ t, exec .layerNone (loaded 18 18 carrierP2) = .next t ∧
    Succeeds (loaded 18 18 carrierP2) t (bytes [0xCB, 0xC3]) :=
  succeeds_of_unit (hasInput_loaded _ _ _ (by decide) (by decide)) (by decide) (by decide) (by decide)
theorem witness_LayerEqualsStagesChained_parpack : ∃ t, exec .layerParpack (loaded 18 18 carrierP3) = .next t ∧
    Succeeds (loaded 18 18 carrierP3) t (bytes [0x54, 0x44, 0x4F, 0x2D, 0x4F, 0x4B, 0x21]) :=
  succeeds_of_unit (hasInput_loaded _ _ _ (by decide) (by decide)) (by decide) (by decide) (by decide)

theorem witness_InRangeErrors : (loaded 16 16 []).cfg.maxIn < (17#32 : Word).toNat := by decide

/-- The result of PACK, the payload and the decoded buffer of a LAYER command, each one byte or more above MAX_OUT. -/
theorem witness_OutRangeErrors_result : (loaded 16 6 (bytes [0x01])).HasInput (bytes [0x01]) ∧
    unitOf 6 .pack (bytes [0x01]) = .ok (List.replicate 7 0x00#8) ∧ 6 < (List.replicate 7 0x00#8).length :=
  ⟨hasInput_loaded _ _ _ (by decide) (by decide), by decide, by decide⟩
theorem witness_OutRangeErrors_payload : (loaded 16 6 zzz).HasInput zzz ∧ extract zzz = .ok zzz ∧ 6 < zzz.length :=
  ⟨hasInput_loaded _ _ _ (by decide) (by decide), by decide, by decide⟩
theorem witness_OutRangeErrors_decoded : (loaded 16 11 zzz).HasInput zzz ∧ extract zzz = .ok zzz ∧ zzz.length ≤ 11 ∧
    b85Decode zzz = .ok (List.replicate 12 0x00#8) ∧ 11 < (List.replicate 12 0x00#8).length :=
  ⟨hasInput_loaded _ _ _ (by decide) (by decide), by decide, by decide, by decide, by decide⟩

theorem witness_OutRangeErrors_stage : (loaded 1 1 []).HasInput [] ∧ unitOf 1 .extract [] = .error .startMissing :=
  ⟨hasInput_loaded _ _ _ (by decide) (by decide), by decide⟩

/-- IN_LEN equal to MAX_IN, the last byte unwritten; and the same with every byte written. -/
theorem witness_UnwrittenInputFaults : let s := { loaded 2 2 (bytes [0x07]) with inLen := 2#32 }
    s.inLen.toNat ≤ s.cfg.maxIn ∧ 1 < s.inLen.toNat ∧ s.inMem.read 1 = none ∧ faults (exec .xorrot s) = true ∧
    faults (exec .xorrot (loaded 2 2 (bytes [0x07, 0x08]))) = false := by decide

theorem witness_CommandFrame : (loaded 18 18 carrierP2).cfg.wf = true ∧ ∃ t, exec .layerXor (loaded 18 18 carrierP2) = .next t :=
  ⟨by decide, _, exec_eq_runUnit _ _ |>.trans (runUnit_of_hasInput (hasInput_loaded _ _ _ (by decide) (by decide)))⟩

/-- A second state that differs in every field a command must not look at. -/
theorem witness_ResultDependsOnlyOnInput : let s := loaded 2 2 (bytes [0x07])
    let s' := { waiting with cfg := s.cfg, inMem := (0, 0x07#8) :: [(1, 0xFF#8)] }
    s'.cfg = s.cfg ∧ s'.inLen = s.inLen ∧ (∀ k, k < s.inLen.toNat → s'.inMem.read k = s.inMem.read k) ∧ s' ≠ s := by decide

/-- A legal state that is not the reset state: a command waiting, with its input loaded. -/
theorem witness_waiting_legal : waiting.Inv where
  cfg_wf := by decide
  latch_eq_cmd := rfl
  busy_status := fun _ => rfl
  idle_status := fun h => by cases h
  inMem_wf := by decide
  inMem_bound := fun i hi => by
    have h : waiting.inMem = Memory.ofBytes (bytes [0x07]) := rfl
    rw [h, Memory.read_ofBytes, List.getElem?_eq_none]
    have : (16 : Nat) ≤ i := hi
    simp only [bytes, List.map_cons, List.map_nil, List.length_cons, List.length_nil]
    omega
  outMem_wf := by decide
  outMem_determined := fun h => by cases h
  outMem_busy := fun _ _ => rfl
  outLen_bound := by decide
  outLen_error := fun h => by cases h

theorem witness_StepKeepsLegal : waiting.Inv ∧ ∃ t, step waiting = .next t := ⟨witness_waiting_legal, _, rfl⟩
theorem witness_StatusFieldsInLegalStates : waiting.Inv ∧ statusBusy waiting.status = true := ⟨witness_waiting_legal, by decide⟩

/-- One step of each kind: a read while waiting, an issue, a completion, a reset. -/
theorem witness_OnlyIssueCompletionResetChangeStatus : (∃ t, step waiting = .next t) ∧
    (∃ t, step { loaded 16 16 [] with inputs := [.issue .pack] } = .next t ∧ t.phase = .busy ∧ t.latch = t.cmd) ∧
    (∃ t, step (running .pack (loaded 16 16 [])) = .next t) ∧ ∃ t, step { waiting with inputs := [.reset] } = .next t :=
  ⟨⟨_, rfl⟩, ⟨_, rfl, rfl, rfl⟩, ⟨_, rfl⟩, _, rfl⟩

/-- The lines that write the last byte of IN_MEM, one past it, and by LOADIN; and lines that write none. -/
theorem witness_WhoWritesWhat_lines : target (loaded 3 2 []).cfg 0x500002 1 = some (.inByte 2) ∧
    target (loaded 3 2 []).cfg 0x500002 1 ≠ some (.inByte 1) ∧ target (loaded 3 2 []).cfg 0x500003 1 ≠ some (.inByte 3) ∧
    (∃ t, step { loaded 3 2 [] with inputs := [.access (.write 0x500002 1 7)] } = .next t ∧ t.inMem = [(2, 7#8)]) ∧
    (∃ t, step { loaded 3 2 [] with inputs := [.loadIn 2 [7#8]] } = .next t ∧ t.inMem = [(2, 7#8)]) ∧
    ∃ t, step { loaded 3 2 [7#8] with inputs := [.readOut] } = .next t ∧ t.inMem = [(0, 7#8)] :=
  ⟨by decide, by decide, by decide, ⟨_, rfl, by decide⟩, ⟨_, rfl, by decide⟩, _, rfl, by decide⟩

theorem witness_WhoWritesWhat : (∃ t, step waiting = .next t ∧ waiting.remaining ≠ 0 ∧ ∀ ls, waiting.inputs ≠ .reset :: ls) ∧
    (∃ t, step (running .pack (loaded 16 16 [])) = .next t ∧ (running .pack (loaded 16 16 [])).remaining = 0) :=
  ⟨⟨_, rfl, by decide, fun _ h => by cases h⟩, _, rfl, rfl⟩

theorem witness_RunIsIssueThenWait : (loaded 16 16 []).phase = .idle := by decide

/-- As many bytes as IN_MEM has. -/
theorem witness_LoadInWritesTheInput : let s := { loaded 2 2 [] with inputs := [.loadIn 0 (bytes [0x07, 0x08])] }
    s.cfg.wf = true ∧ s.phase = .idle ∧ (bytes [0x07, 0x08]).length ≤ s.cfg.maxIn ∧ s.inputs = .loadIn 0 (bytes [0x07, 0x08]) :: [] := by decide

theorem witness_WaitEnds : let s := { waiting with inputs := [.wait] }
    s.cfg.wf = true ∧ s.phase = .busy ∧ s.status = 0x00000001#32 ∧ s.NoUnwritten ∧ s.inputs = .wait :: [] :=
  ⟨by decide, rfl, rfl, .inr (.inr (by decide)), rfl⟩

/-- As many bytes as OUT_MEM has. -/
theorem witness_ChainCopiesOutputToInput : let s := { completed with inputs := [.chain] }
    s.cfg.wf = true ∧ s.phase = .idle ∧ s.outLen.toNat = (bytes [0x4F, 0x4B]).length ∧ s.outMem.Holds (bytes [0x4F, 0x4B]) ∧
    (bytes [0x4F, 0x4B]).length ≤ s.cfg.maxOut ∧ (bytes [0x4F, 0x4B]).length ≤ s.cfg.maxIn ∧ s.inputs = .chain :: [] :=
  ⟨by decide, rfl, by decide, Memory.holds_ofBytes _, by decide, by decide, rfl⟩

theorem witness_ReadOutReturnsTheOutput : let s := { completed with inputs := [.readOut] }
    s.cfg.wf = true ∧ s.phase = .idle ∧ s.outLen.toNat = (bytes [0x4F, 0x4B]).length ∧ s.outMem.Holds (bytes [0x4F, 0x4B]) ∧
    (bytes [0x4F, 0x4B]).length ≤ s.cfg.maxOut ∧ s.inputs = .readOut :: [] :=
  ⟨by decide, rfl, by decide, Memory.holds_ofBytes _, by decide, rfl⟩

end Sys2Proof.Tests
end

/-! # The state (10_state.md)

What one step does to the block, and the statements on the legal states, on LATENCY and on who writes what. -/

namespace Sys2Proof.Machine

open Host

/-! ### The block, apart from the script and the record of answers -/

theorem SameBlock.refl (s : State) : SameBlock s s := ⟨rfl, rfl, rfl, rfl, rfl, rfl, rfl, rfl, rfl⟩

/-- The legal states are a predicate of the block alone. -/
theorem State.Inv.of_sameBlock {s t : State} (hi : s.Inv) (h : SameBlock s t) : t.Inv where
  cfg_wf := by rw [h.cfg]; exact hi.cfg_wf
  latch_eq_cmd := by rw [h.latch, h.cmd]; exact hi.latch_eq_cmd
  busy_status := by rw [h.phase, h.status]; exact hi.busy_status
  idle_status := by rw [h.phase, h.status]; exact hi.idle_status
  inMem_wf := by rw [h.inMem]; exact hi.inMem_wf
  inMem_bound := by rw [h.cfg, h.inMem]; exact hi.inMem_bound
  outMem_wf := by rw [h.outMem]; exact hi.outMem_wf
  outMem_determined := by rw [h.phase, h.outMem, h.outLen]; exact hi.outMem_determined
  outMem_busy := by rw [h.phase, h.outMem]; exact hi.outMem_busy
  outLen_bound := by rw [h.outLen, h.cfg]; exact hi.outLen_bound
  outLen_error := by rw [h.phase, h.status, h.outLen]; exact hi.outLen_error

/-! ### What a step does to the block, said once -/

/-- While BUSY a host-port step that is no reset leaves the block, the count of LATENCY and the schedule alone, and puts no reset into
the script (70_reset_and_hazards.md R265). -/
theorem hostTurn_busy {s : State} (hp : s.phase = .busy) (hn : ∀ ls, s.inputs ≠ .reset :: ls) :
    SameBlock s (hostTurn s) ∧ (hostTurn s).remaining = s.remaining ∧ (hostTurn s).schedule = s.schedule ∧
      (.reset ∉ s.inputs → .reset ∉ (hostTurn s).inputs) := by
  rcases hostTurn_cases s with ⟨_, h⟩ | ⟨ls, hls, _⟩ | ⟨l, ls, a, new, hls, _, hnew, h⟩
  · rw [h]; exact ⟨.refl s, rfl, rfl, id⟩
  · exact absurd hls (hn ls)
  · obtain ⟨r, d, ha⟩ := performAccess_busy a { s with inputs := ls } hp
    rw [h, ha, hls]
    refine ⟨by constructor <;> rfl, rfl, rfl, fun hs hmem => ?_⟩
    rcases List.mem_append.1 hmem with hmem | hmem
    · exact hnew hmem
    · exact hs (List.mem_cons_of_mem l hmem)

/-- Everything a step that answers a next state can do to the block (30_encoding.md R80, R82; 60_exceptions.md R236;
70_reset_and_hazards.md R260, R265). -/
inductive StepEffect (s : State) : State → Prop where
  | none {t : State} (h : SameBlock s t) : StepEffect s t
  | hostWrite {u t : State} (hp : s.phase = .idle) (hw : HostWrite s u) (h : SameBlock u t) : StepEffect s t
  | reset {ls : List Input} {t : State} (hls : s.inputs = .reset :: ls) (h : SameBlock s.resetBlock t) : StepEffect s t
  | completeErr (hp : s.phase = .busy) (hr : s.remaining = 0) (e : Err) : StepEffect s (s.completeErr e)
  | completeOk (hp : s.phase = .busy) (hr : s.remaining = 0) {bs : List Byte} (hl : bs.length ≤ s.cfg.maxOut) :
      StepEffect s (s.completeOk bs)

theorem stepEffect_hostTurn (s : State) : StepEffect s (hostTurn s) := by
  rcases hostTurn_cases s with ⟨_, h⟩ | ⟨ls, hls, h⟩ | ⟨l, ls, a, new, _, _, _, h⟩ <;> rw [h]
  · exact .none (.refl s)
  · exact .reset hls (by constructor <;> rfl)
  · rw [performAccess_inputs]
    rcases performAccess_cases a s with ⟨r, d, ha⟩ | ⟨hp, u, hw, ha⟩ <;> rw [ha]
    · exact .none (by constructor <;> rfl)
    · exact .hostWrite hp hw (by constructor <;> rfl)

/-- A step of LATENCY differs from an idle host-port step only in the count. -/
theorem stepEffect_hostTurn_tick {s : State} (hp : s.phase = .busy) : StepEffect s (hostTurn s.tick) := by
  by_cases hls : ∃ ls, s.inputs = .reset :: ls
  · obtain ⟨ls, hls⟩ := hls
    refine .reset hls ?_
    rw [hostTurn, State.tick_inputs, hls]
    constructor <;> rfl
  · have hw := (hostTurn_busy (s := s.tick) hp fun ls h => hls ⟨ls, h⟩).1
    exact .none (SameBlock.trans (by constructor <;> rfl) hw)

theorem stepEffect_of_step {s t : State} (h : step s = .next t) : StepEffect s t := by
  rcases step_next h with ⟨_, rfl⟩ | ⟨hp, _, rfl⟩ | ⟨hp, hr, hc⟩
  · exact stepEffect_hostTurn s
  · exact stepEffect_hostTurn_tick hp
  · rcases coreStep_next hc with ⟨e, rfl⟩ | ⟨bs, hl, rfl⟩
    · exact .completeErr hp hr e
    · exact .completeOk hp hr hl

/-! ### The legal states are kept -/

/-- Every error completes with a value of the table (60_exceptions.md R231, R236). -/
theorem statusErr_mem_errorStatuses (e : Err) : statusErr e ∈ errorStatuses := by
  cases e with
  | illegal c => cases c <;> decide
  | _ => decide

theorem State.Inv.issue {s : State} (hi : s.Inv) (w : Word) : (s.issue w).Inv where
  cfg_wf := hi.cfg_wf
  latch_eq_cmd := rfl
  busy_status := fun _ => rfl
  idle_status := nofun
  inMem_wf := hi.inMem_wf
  inMem_bound := hi.inMem_bound
  outMem_wf := .nil
  outMem_determined := nofun
  outMem_busy := fun _ => Memory.holds_nil
  outLen_bound := hi.outLen_bound
  outLen_error := nofun

theorem State.Inv.hostWrite {s t : State} (hi : s.Inv) (h : HostWrite s t) : t.Inv := by
  cases h with
  | issue w => exact hi.issue w
  | inLen v => exact { hi with }
  | inByte i v hlt =>
    refine { hi with inMem_wf := Memory.write_wf _ _ _ hi.inMem_wf, inMem_bound := fun j hj => ?_ }
    have hj : s.cfg.maxIn ≤ j := hj
    rw [Memory.read_write_other _ v (by omega)]
    exact hi.inMem_bound j hj

theorem State.Inv.completeErr {s : State} (hi : s.Inv) (e : Err) : (s.completeErr e).Inv where
  cfg_wf := hi.cfg_wf
  latch_eq_cmd := hi.latch_eq_cmd
  busy_status := nofun
  idle_status := fun _ => .inr (.inr (statusErr_mem_errorStatuses e))
  inMem_wf := hi.inMem_wf
  inMem_bound := hi.inMem_bound
  outMem_wf := .nil
  outMem_determined := fun _ i => by simp
  outMem_busy := nofun
  outLen_bound := Nat.zero_le _
  outLen_error := fun _ _ => rfl

theorem State.Inv.completeOk {s : State} (hi : s.Inv) {bs : List Byte} (hl : bs.length ≤ s.cfg.maxOut) :
    (s.completeOk bs).Inv := by
  have hlt := Config.maxOut_lt s.cfg hi.cfg_wf
  have hlen : (s.completeOk bs).outLen.toNat = bs.length := (s.succeeds_completeOk bs (by omega)).outLen
  exact {
    cfg_wf := hi.cfg_wf
    latch_eq_cmd := hi.latch_eq_cmd
    busy_status := nofun
    idle_status := fun _ => .inr (.inl rfl)
    inMem_wf := hi.inMem_wf
    inMem_bound := hi.inMem_bound
    outMem_wf := Memory.ofBytes_wf bs
    outMem_determined := fun _ i => by rw [hlen, State.completeOk_outMem, Memory.read_ofBytes, Bool.eq_iff_iff]; simp
    outMem_busy := nofun
    outLen_bound := hlen ▸ hl
    outLen_error := fun _ hne => absurd rfl hne }

/-- Reset gives a legal state whatever was there before (70_reset_and_hazards.md R260). -/
theorem State.inv_resetBlock {s : State} (hc : s.cfg.wf = true) : s.resetBlock.Inv where
  cfg_wf := hc
  latch_eq_cmd := rfl
  busy_status := nofun
  idle_status := fun _ => .inl rfl
  inMem_wf := .nil
  inMem_bound := fun _ _ => rfl
  outMem_wf := .nil
  outMem_determined := fun _ i => by simp
  outMem_busy := nofun
  outLen_bound := Nat.zero_le _
  outLen_error := fun _ _ => rfl

theorem State.Inv.stepEffect {s t : State} (hi : s.Inv) (h : StepEffect s t) : t.Inv := by
  cases h with
  | none h => exact hi.of_sameBlock h
  | hostWrite _ hw h => exact (hi.hostWrite hw).of_sameBlock h
  | reset _ h => exact (State.inv_resetBlock hi.cfg_wf).of_sameBlock h
  | completeErr _ _ e => exact hi.completeErr e
  | completeOk _ _ hl => exact hi.completeOk hl

/-! ### The fields of STATUS -/

/-- The values STATUS has while IDLE (10_state.md R24, 60_exceptions.md R231). -/
def idleStatuses : List Word := 0x00000000#32 :: 0x00000002#32 :: errorStatuses

theorem State.Inv.status_mem_idleStatuses {s : State} (hi : s.Inv) (hp : s.phase = .idle) : s.status ∈ idleStatuses := by
  simpa [idleStatuses] using hi.idle_status hp

theorem statusBusy_of_mem_idleStatuses : ∀ w ∈ idleStatuses, statusBusy w = false := by
  simp [idleStatuses, errorStatuses, errorTable, statusBusy]

theorem statusReserved_of_mem_idleStatuses : ∀ w ∈ idleStatuses, statusReserved w = 0#22 := by
  simp [idleStatuses, errorStatuses, errorTable, statusReserved]

/-- ERR and CAUSE are both 0 or one of the pairs of 60_exceptions.md R231. -/
theorem statusFields_of_mem_idleStatuses : ∀ w ∈ idleStatuses, (statusErrField w, statusCauseField w) ∈
    [(0#4, 0#4), (1#4, 1#4), (1#4, 2#4), (2#4, 1#4), (2#4, 2#4), (2#4, 3#4), (2#4, 4#4), (2#4, 5#4), (3#4, 1#4), (3#4, 2#4),
      (3#4, 3#4), (4#4, 1#4), (4#4, 2#4)] := by
  simp [idleStatuses, errorStatuses, errorTable, statusErrField, statusCauseField]

/-! ### Completion does not depend on what LATENCY changes -/

/-- Two outcomes of a completion that the block cannot tell apart: next states with the same block, or the same fault. -/
inductive SameOutcome : Outcome State Fault Refusal → Outcome State Fault Refusal → Prop where
  | next {s t : State} (h : SameBlock s t) : SameOutcome (.next s) (.next t)
  | fault (f : Fault) : SameOutcome (.fault f) (.fault f)

theorem runUnit_sameBlock {s t : State} (h : SameBlock s t) (f : List Byte → Except Err (List Byte)) :
    SameOutcome (runUnit f s) (runUnit f t) := by
  have hin : t.input = s.input := State.input_congr h.inLen fun k _ => by rw [h.inMem]
  unfold runUnit
  rw [h.cfg, h.inLen, hin]
  split
  · exact .next (State.complete_sameBlock h (.error .inRange))
  · cases s.input with
    | none => exact .fault _
    | some x => exact .next (State.complete_sameBlock h _)

theorem coreStep_sameBlock {s t : State} (h : SameBlock s t) : SameOutcome (coreStep s) (coreStep t) := by
  unfold coreStep
  rw [h.latch]
  cases decode s.latch with
  | error c => exact .next (State.complete_sameBlock h (.error (.illegal c)))
  | ok i => simpa only [exec_eq_runUnit, h.cfg] using runUnit_sameBlock h (unitOf s.cfg.maxOut i)

/-- A run of one step has the step's outcome. -/
theorem run_core_one (s : State) : Core.run core 1 s = step s := by
  have h : Core.run core 1 s = core.step s := by
    simp only [Core.run]
    cases core.step s <;> rfl
  exact h

/-- A step of LATENCY that is no reset (10_state.md R30). -/
theorem step_wait_frame {s : State} (hp : s.phase = .busy) (hr : s.remaining ≠ 0) (hn : ∀ ls, s.inputs ≠ .reset :: ls) :
    ∃ t, step s = .next t ∧ SameBlock s t ∧ t.remaining = s.remaining - 1 ∧ t.schedule = s.schedule ∧
      (.reset ∉ s.inputs → .reset ∉ t.inputs) := by
  obtain ⟨hb, hrem, hsched, hscript⟩ := hostTurn_busy (s := s.tick) hp hn
  exact ⟨_, step_wait hp hr, SameBlock.trans (by constructor <;> rfl) hb, hrem, hsched, hscript⟩

/-- The run to the completion ends as the core's completion from any state `u` with the same block, by induction on the steps of
LATENCY left. -/
theorem run_latency_sameOutcome {u s : State} (h : SameBlock u s) (hp : s.phase = .busy) (hn : .reset ∉ s.inputs) :
    SameOutcome (coreStep u) (Core.run core (s.remaining + 1) s) := by
  induction hr : s.remaining generalizing s with
  | zero =>
    rw [run_core_one, step_complete hp hr]
    exact coreStep_sameBlock h
  | succ n ih =>
    obtain ⟨t, hstep, hb, hrem, _, hscript⟩ := step_wait_frame hp (by omega) fun ls hls => hn (by simp [hls])
    rw [run_core_succ _ hstep]
    exact ih (h.trans hb) (hb.phase.trans hp) (hscript hn) (by omega)

/-! ### Who writes IN_MEM, OUT_MEM and OUT_LEN -/

/-- Only a 1-byte access at the byte's own address names a byte of IN_MEM (20_memory.md R50, R52). -/
theorem target_eq_inByte {c : Config} {addr n i : Nat} (h : target c addr n = some (.inByte i)) :
    n = 1 ∧ addr = c.base + inMemOffset + i := by
  unfold target at h
  split at h
  next hwin =>
    split at h
    · unfold registerAt at h
      repeat' split at h
      all_goals exact nomatch h
    · split at h
      next hn =>
        unfold bufferByteAt at h
        split at h
        · injection h with h; injection h with h; exact ⟨hn, by omega⟩
        · split at h <;> exact nomatch h
      · exact nomatch h
  · exact nomatch h

@[simp] theorem performAccess_read_inMem (s : State) (addr n : Nat) : (performAccess (.read addr n) s).inMem = s.inMem := by
  simp only [performAccess]
  cases target s.cfg addr n <;> rfl

/-- A write stores one byte of IN_MEM, the one it names, or none. -/
theorem performAccess_write_inMem (s : State) (addr n v : Nat) : (performAccess (.write addr n v) s).inMem = s.inMem ∨
    ∃ j b, target s.cfg addr n = some (.inByte j) ∧ (performAccess (.write addr n v) s).inMem = s.inMem.write j b := by
  cases ht : target s.cfg addr n with
  | none => left; simp only [performAccess, ht, Option.bind_none, State.respond_inMem]
  | some t =>
    cases hw : writeTarget t v s with
    | none => left; rw [performAccess_write_refused ht hw, State.respond_inMem]
    | some s' =>
      rw [performAccess_write ht hw, State.respond_inMem]
      rcases Phase.idle_or_busy s.phase with hp | hp
      case inr => left; rw [ignoreWhileBusy_busy _ hp]
      rw [ignoreWhileBusy_idle _ hp]
      cases t with
      | inByte i => cases hw; exact .inr ⟨i, _, rfl, rfl⟩
      | cmd => cases hw; exact .inl rfl
      | inLen => cases hw; exact .inl rfl
      | status => cases hw
      | outLen => cases hw
      | outByte _ => cases hw

/-- A 4-byte write names a register, never a byte of IN_MEM. -/
@[simp] theorem performAccess_w32_inMem (s : State) (off v : Nat) : (performAccess (w32 s.cfg off v) s).inMem = s.inMem := by
  rcases performAccess_write_inMem s (s.cfg.base + off) 4 v with h | ⟨j, b, ht, _⟩
  · exact h
  · exact absurd (target_eq_inByte ht).1 (by decide)

/-- The two lines of a script that write byte `j` of IN_MEM (30_encoding.md R78, R79). -/
inductive WritesInByte (c : Config) (j : Nat) : Input → Prop where
  | access {addr n v : Nat} (h : target c addr n = some (.inByte j)) : WritesInByte c j (.access (.write addr n v))
  | loadIn (b : Byte) (bs : List Byte) : WritesInByte c j (.loadIn j (b :: bs))

/-- A line of the script stores one byte of IN_MEM, the one it writes, or none. -/
theorem performInput_inMem {l : Input} (hl : l ≠ .reset) (s : State) : (performInput l s).inMem = s.inMem ∨
    ∃ j b, WritesInByte s.cfg j l ∧ (performInput l s).inMem = s.inMem.write j b := by
  cases l with
  | access a =>
    cases a with
    | read addr n => exact .inl (performAccess_read_inMem s addr n)
    | write addr n v =>
      rcases performAccess_write_inMem s addr n v with h | ⟨j, b, ht, h⟩
      · exact .inl h
      · exact .inr ⟨j, b, .access ht, h⟩
  | loadIn k bs =>
    cases bs with
    | nil => exact .inl (performAccess_w32_inMem s _ k)
    | cons b bs =>
      rcases performAccess_write_inMem s (s.cfg.base + inMemOffset + k) 1 b.toNat with h | ⟨j, b', ht, h⟩
      · exact .inl h
      · obtain rfl : j = k := by have := (target_eq_inByte ht).2; omega
        exact .inr ⟨j, b', .loadIn b bs, h⟩
  | wait =>
    left
    simp only [performInput]
    split <;> simp [r32]
  | issue i => exact .inl (performAccess_w32_inMem s _ _)
  | run i => exact .inl (performAccess_w32_inMem s _ _)
  | readOut => exact .inl (performAccess_read_inMem s _ _)
  | readOutFrom k n => exact .inl (performAccess_read_inMem s _ _)
  | chain => exact .inl (performAccess_read_inMem s _ _)
  | chainFrom k n got => exact .inl (performAccess_read_inMem s _ _)
  | reset => exact absurd rfl hl

theorem hostTurn_inMem {s : State} (hn : ∀ ls, s.inputs ≠ .reset :: ls) : (hostTurn s).inMem = s.inMem ∨
    ∃ l ls j b, s.inputs = l :: ls ∧ WritesInByte s.cfg j l ∧ (hostTurn s).inMem = s.inMem.write j b := by
  unfold hostTurn
  split
  · exact .inl rfl
  · next l ls hls =>
    rcases performInput_inMem (l := l) (fun h => hn ls (h ▸ hls)) { s with inputs := ls } with h | ⟨j, b, hw, h⟩
    · exact .inl h
    · exact .inr ⟨l, ls, j, b, hls, hw, h⟩

/-- A step that is no reset stores one byte of IN_MEM, the one its line writes, or none (10_state.md R26). -/
theorem step_inMem {s t : State} (h : step s = .next t) (hn : ∀ ls, s.inputs ≠ .reset :: ls) : t.inMem = s.inMem ∨
    ∃ l ls j b, s.inputs = l :: ls ∧ WritesInByte s.cfg j l ∧ t.inMem = s.inMem.write j b := by
  rcases step_next h with ⟨_, rfl⟩ | ⟨_, _, rfl⟩ | ⟨_, _, hc⟩
  · exact hostTurn_inMem hn
  · exact hostTurn_inMem (s := s.tick) hn
  · rcases coreStep_next hc with ⟨_, rfl⟩ | ⟨_, _, rfl⟩ <;> exact .inl rfl

/-- No step changes the parameters (log 1). -/
theorem step_cfg {s t : State} (h : step s = .next t) : t.cfg = s.cfg := by
  cases stepEffect_of_step h with
  | none h => exact h.cfg
  | hostWrite _ hw h => rw [h.cfg]; cases hw <;> rfl
  | reset _ h => exact h.cfg
  | completeErr => rfl
  | completeOk => rfl

/-- A completion leaves alone what no command touches (60_exceptions.md R236). -/
theorem coreStep_sameButOutput {s t : State} (h : coreStep s = .next t) : SameButOutput s t := by
  rcases coreStep_next h with ⟨e, rfl⟩ | ⟨bs, _, rfl⟩
  · exact s.sameButOutput_completeErr e
  · exact s.sameButOutput_completeOk bs

/-- The host writes no OUT_LEN (10_state.md R28). -/
theorem HostWrite.outLen {s t : State} (h : HostWrite s t) : t.outLen = s.outLen := by cases h <;> rfl

/-- Of the host's writes only the issue, which leaves IDLE, touches OUT_MEM (10_state.md R27). -/
theorem HostWrite.outMem {s t : State} (h : HostWrite s t) (ht : t.phase = .idle) : t.outMem = s.outMem := by
  cases h with
  | issue w => exact nomatch ht
  | inLen v => rfl
  | inByte i v hlt => rfl

/-- A host-port step that is no reset leaves the stored OUT_LEN (log 5), and OUT_MEM unless it issues (10_state.md R27, R28). -/
theorem step_output {s t : State} (h : step s = .next t) (hturn : s.phase = .idle ∨ s.remaining ≠ 0)
    (hn : ∀ ls, s.inputs ≠ .reset :: ls) : t.outLen = s.outLen ∧ (t.phase = s.phase → t.outMem = s.outMem) := by
  have noCompletion : s.phase = .busy → s.remaining = 0 → False := fun hp hr => by
    rcases hturn with hi | hne
    · rw [hp] at hi; cases hi
    · exact hne hr
  cases stepEffect_of_step h with
  | none h => exact ⟨h.outLen, fun _ => h.outMem⟩
  | hostWrite hp hw h =>
    exact ⟨h.outLen.trans hw.outLen, fun hs => h.outMem.trans (hw.outMem (h.phase.symm.trans (hs.trans hp)))⟩
  | reset hls _ => exact absurd hls (hn _)
  | completeErr hp hr _ => exact (noCompletion hp hr).elim
  | completeOk hp hr _ => exact (noCompletion hp hr).elim

/-- A byte that the script's next line does not write stays. -/
theorem step_inMem_read {s t : State} {l : Input} {ls : List Input} {j : Nat} (h : step s = .next t) (hls : s.inputs = l :: ls)
    (hl : l ≠ .reset) (hw : ¬ WritesInByte s.cfg j l) : t.inMem.read j = s.inMem.read j := by
  have hn : ∀ ls', s.inputs ≠ .reset :: ls' := fun ls' h' => hl (List.cons.inj (hls.symm.trans h')).1
  rcases step_inMem h hn with hm | ⟨l', ls', i, b, hls', hw', hm⟩
  · rw [hm]
  · obtain ⟨rfl, rfl⟩ := List.cons.inj (hls.symm.trans hls')
    have hji : j ≠ i := by rintro rfl; exact hw hw'
    rw [hm, Memory.read_write_other _ b hji]

/-- A line that writes no byte leaves IN_MEM whole. -/
theorem step_inMem_eq {s t : State} (h : step s = .next t) (hn : ∀ ls, s.inputs ≠ .reset :: ls)
    (hw : ∀ l ls j, s.inputs = l :: ls → ¬ WritesInByte s.cfg j l) : t.inMem = s.inMem := by
  rcases step_inMem h hn with hm | ⟨l, ls, j, b, hls, hw', _⟩
  · exact hm
  · exact absurd hw' (hw l ls j hls)

/-- While BUSY a step that is no reset leaves IN_MEM (70_reset_and_hazards.md R265). -/
theorem step_busy_inMem {s t : State} (h : step s = .next t) (hp : s.phase = .busy) (hn : ∀ ls, s.inputs ≠ .reset :: ls) :
    t.inMem = s.inMem := by
  cases stepEffect_of_step h with
  | none h => exact h.inMem
  | hostWrite hidle _ _ => rw [hp] at hidle; cases hidle
  | reset hls _ => exact absurd hls (hn _)
  | completeErr => rfl
  | completeOk => rfl

/-- A command word written out as a number is the word (log 14). -/
@[simp] theorem tableWord_toNat (w : Word) : tableWord 32 w.toNat = w := by
  unfold tableWord
  rw [Nat.mod_eq_of_lt w.isLt, BitVec.ofNat_toNat, BitVec.setWidth_eq]

theorem coreStep_of_decode {s : State} {i : Instr} (h : decode s.latch = .ok i) : coreStep s = exec i s := by
  simp only [coreStep, h]

end Sys2Proof.Machine

/-! ### The obligations -/

namespace Sys2Proof.Proofs

open Sys2Proof.Machine Host

/-- Settles O47: each effect a step can have keeps the invariant. -/
theorem stepKeepsLegal : Obligations.StepKeepsLegal := by
  unfold Obligations.StepKeepsLegal
  exact fun s t hi h => hi.stepEffect (stepEffect_of_step h)

/-- Settles O9: while BUSY every host access is refused, ignored or a read. -/
theorem waitingChangesNothing : Obligations.WaitingChangesNothing := by
  unfold Obligations.WaitingChangesNothing
  intro s hp hr hn
  obtain ⟨t, hstep, hb, hrem, hsched, _⟩ := step_wait_frame hp hr hn
  exact ⟨t, hstep, hb, hrem, hsched⟩

/-- Settles O10: by induction on the steps of LATENCY left, since completion depends on the block alone. -/
theorem resultIndependentOfLatency : Obligations.ResultIndependentOfLatency := by
  unfold Obligations.ResultIndependentOfLatency
  intro s hp hn
  have h := run_latency_sameOutcome (.refl s) hp hn
  generalize coreStep s = atOnce, Core.run core (s.remaining + 1) s = later at h ⊢
  cases h with
  | next hb => exact ⟨_, rfl, hb⟩
  | fault f => rfl

/-- Settles O20: the two writes by their targets, and the buffer's read after a write. -/
theorem idleWritesStore : Obligations.IdleWritesStore := by
  unfold Obligations.IdleWritesStore
  intro s hw hp
  refine ⟨fun v => ?_, fun i b hi => ⟨_, rfl, ?_⟩⟩
  · have ht : target s.cfg (s.cfg.base + 0x000008) 4 = some .inLen := target_register _ 0x000008 (by decide)
    rw [performAccess_write ht rfl, ignoreWhileBusy_idle _ hp, BitVec.ofNat_toNat, BitVec.setWidth_eq]
    rfl
  · rw [performAccess_write (target_inByte_of_lt _ i hw hi) rfl, ignoreWhileBusy_idle _ hp, BitVec.ofNat_toNat, BitVec.setWidth_eq]
    exact ⟨Memory.read_write_same _ i b, fun j hj => Memory.read_write_other _ b hj, rfl, rfl⟩

/-- Settles O48: STATUS is 0x1 while BUSY and one of the idle values while IDLE. -/
theorem statusFieldsInLegalStates : Obligations.StatusFieldsInLegalStates := by
  unfold Obligations.StatusFieldsInLegalStates
  intro s hi
  rcases Phase.idle_or_busy s.phase with hp | hp
  · have hmem := hi.status_mem_idleStatuses hp
    have hbusy := statusBusy_of_mem_idleStatuses _ hmem
    exact ⟨by simp [hbusy, hp], by simp [hbusy], by simp [hbusy], statusReserved_of_mem_idleStatuses _ hmem,
      statusFields_of_mem_idleStatuses _ hmem⟩
  · rw [hi.busy_status hp, hp]
    decide

/-- Settles O49: each effect a step can have, read for STATUS. -/
theorem onlyIssueCompletionResetChangeStatus : Obligations.OnlyIssueCompletionResetChangeStatus := by
  unfold Obligations.OnlyIssueCompletionResetChangeStatus
  intro s t h
  cases stepEffect_of_step h with
  | none h => exact .inl h.status
  | hostWrite hp hw h =>
    cases hw with
    | issue w => exact .inr (.inl ⟨hp, h.phase, h.status, h.latch.trans h.cmd.symm⟩)
    | inLen v => exact .inl h.status
    | inByte i v hlt => exact .inl h.status
  | reset hls h => exact .inr (.inr (.inr ⟨_, hls, h.status, h.phase⟩))
  | completeErr hp hr e => exact .inr (.inr (.inl ⟨hp, hr, rfl, .inr (statusErr_mem_errorStatuses e)⟩))
  | completeOk hp hr _ => exact .inr (.inr (.inl ⟨hp, hr, rfl, .inl rfl⟩))

/-- Settles O50: the frame of a completion, and the one byte of IN_MEM that a line of the script can write. -/
theorem whoWritesWhat : Obligations.WhoWritesWhat := by
  unfold Obligations.WhoWritesWhat
  intro s t h
  refine ⟨step_cfg h, fun hp hr => ?_, fun hturn hn => ?_⟩
  · obtain ⟨hcmd, hinLen, hinMem, hlatch, _, _, _, hinputs, hresponses, _⟩ :=
      coreStep_sameButOutput (step_complete hp hr ▸ h)
    exact ⟨hinMem, hinLen, hcmd, hlatch, hinputs, hresponses⟩
  · obtain ⟨houtLen, houtMem⟩ := step_output h hturn hn
    refine ⟨houtLen, houtMem, fun hp => step_busy_inMem h hp hn, ?_, ?_, ?_⟩
    · intro addr n v ls hls j hj
      exact step_inMem_read h hls (by simp) fun hw => by cases hw with | access ht => exact hj ht
    · intro k b bs ls hls j hj
      exact step_inMem_read h hls (by simp) fun hw => by cases hw with | loadIn => exact hj rfl
    · intro hwrite hload
      refine step_inMem_eq h hn fun l ls j hls hw => ?_
      cases hw with
      | access _ => exact hwrite _ _ _ _ hls
      | loadIn b bs => exact hload _ _ _ _ hls

/-- Settles O5: the step is the core's completion, and a placed word stands in LATCH. -/
theorem stepRunsLatchedCommand : Obligations.StepRunsLatchedCommand := by
  unfold Obligations.StepRunsLatchedCommand
  have hrun : ∀ (s : State) (i : Instr), s.phase = .busy → s.remaining = 0 → decode s.latch = .ok i → step s = exec i s :=
    fun s i hp hr hd => (step_complete hp hr).trans (coreStep_of_decode hd)
  exact ⟨hrun, fun s w i hd => ⟨by simp, hrun _ i rfl rfl (by simpa using hd)⟩⟩

/-- Settles O12: every field by its definition. -/
theorem resetState : Obligations.ResetState := by
  unfold Obligations.ResetState
  exact ⟨rfl, rfl, rfl, rfl, rfl, rfl, fun _ => rfl, fun _ => rfl⟩

/-- Settles O46: the state after reset is what the reset input makes of it. -/
theorem resetIsLegal : Obligations.ResetIsLegal := by
  unfold Obligations.ResetIsLegal
  exact State.inv_resetBlock (s := State.reset) (by decide)

end Sys2Proof.Proofs

/-! # The host port (20_memory.md)

Which accesses the block accepts, what a read answers, and what a command's outcome depends on. -/

namespace Sys2Proof.Machine

/-! ### The location an access names -/

/-- Where each location stands in the block's window, and the width of an access to it (20_memory.md R50, R52). -/
def Target.At (c : Config) (addr n : Nat) : Target → Prop
  | .cmd => n = 4 ∧ addr = c.base + 0x000000
  | .status => n = 4 ∧ addr = c.base + 0x000004
  | .inLen => n = 4 ∧ addr = c.base + 0x000008
  | .outLen => n = 4 ∧ addr = c.base + 0x00000C
  | .inByte i => n = 1 ∧ i < c.maxIn ∧ addr = c.base + 0x100000 + i
  | .outByte i => n = 1 ∧ i < c.maxOut ∧ addr = c.base + 0x200000 + i

theorem registerAt_at (c : Config) {off : Nat} {t : Target} (h : registerAt off = some t) : t.At c (c.base + off) 4 := by
  unfold registerAt at h
  split_ifs at h with hoff hoff hoff hoff <;> cases h <;> exact ⟨rfl, hoff ▸ rfl⟩

theorem bufferByteAt_at {c : Config} {off : Nat} {t : Target} (h : bufferByteAt c off = some t) : t.At c (c.base + off) 1 := by
  simp only [bufferByteAt, inMemOffset, outMemOffset] at h
  split_ifs at h with hoff hoff <;> cases h <;> exact ⟨rfl, by omega, by omega⟩

theorem target_at {c : Config} {addr n : Nat} {t : Target} (h : target c addr n = some t) : t.At c addr n := by
  unfold target at h
  split_ifs at h with hwin hn hn
  · obtain ⟨off, rfl⟩ := Nat.exists_eq_add_of_le hwin.1
    rw [Nat.add_sub_cancel_left] at h
    exact hn ▸ registerAt_at c h
  · obtain ⟨off, rfl⟩ := Nat.exists_eq_add_of_le hwin.1
    rw [Nat.add_sub_cancel_left] at h
    exact hn ▸ bufferByteAt_at h

/-- Within the parameter bounds an access names a location exactly where that location stands. -/
theorem target_eq_some_iff {c : Config} (hw : c.wf = true) {addr n : Nat} {t : Target} :
    target c addr n = some t ↔ t.At c addr n := by
  refine ⟨target_at, fun h => ?_⟩
  cases t with
  | cmd => obtain ⟨rfl, rfl⟩ := h; exact target_register c cmdOffset (by decide)
  | status => obtain ⟨rfl, rfl⟩ := h; exact target_register c statusOffset (by decide)
  | inLen => obtain ⟨rfl, rfl⟩ := h; exact target_register c inLenOffset (by decide)
  | outLen => obtain ⟨rfl, rfl⟩ := h; exact target_register c outLenOffset (by decide)
  | inByte i => obtain ⟨rfl, hi, rfl⟩ := h; exact target_inByte_of_lt c i hw hi
  | outByte i => obtain ⟨rfl, hi, rfl⟩ := h; exact target_outByte_of_lt c i hw hi

/-- An address outside the window names no location (log 6). -/
theorem target_outside {c : Config} {addr : Nat} (n : Nat) (h : addr < c.base ∨ c.base + Config.windowSize ≤ addr) :
    target c addr n = none := if_neg (by omega)

/-! ### Accepted and refused accesses -/

/-- A read is accepted exactly where its address and width name a location. -/
theorem accepted_read_iff {c : Config} (hw : c.wf = true) {addr n : Nat} :
    Accepted c (.read addr n) ↔ ∃ t, target c addr n = some t := by
  simp only [target_eq_some_iff hw]
  constructor
  · rintro (⟨hn, ha | ha | ha | ha⟩ | ⟨hn, ⟨hlo, hhi⟩ | ⟨hlo, hhi⟩⟩)
    · exact ⟨.cmd, hn, ha⟩
    · exact ⟨.status, hn, ha⟩
    · exact ⟨.inLen, hn, ha⟩
    · exact ⟨.outLen, hn, ha⟩
    · exact ⟨.inByte (addr - (c.base + 0x100000)), hn, by omega, by omega⟩
    · exact ⟨.outByte (addr - (c.base + 0x200000)), hn, by omega, by omega⟩
  · rintro ⟨t, ht⟩
    cases t with
    | cmd => exact .inl ⟨ht.1, .inl ht.2⟩
    | status => exact .inl ⟨ht.1, .inr (.inl ht.2)⟩
    | inLen => exact .inl ⟨ht.1, .inr (.inr (.inl ht.2))⟩
    | outLen => exact .inl ⟨ht.1, .inr (.inr (.inr ht.2))⟩
    | inByte i => obtain ⟨hn, hi, ha⟩ := ht; exact .inr ⟨hn, .inl (by omega)⟩
    | outByte i => obtain ⟨hn, hi, ha⟩ := ht; exact .inr ⟨hn, .inr (by omega)⟩

/-- A write is accepted exactly where its address and width name a location that takes writes. -/
theorem accepted_write_iff {s : State} (hw : s.cfg.wf = true) {addr n v : Nat} :
    Accepted s.cfg (.write addr n v) ↔ ∃ t s', target s.cfg addr n = some t ∧ writeTarget t v s = some s' := by
  simp only [target_eq_some_iff hw]
  constructor
  · rintro (⟨hn, ha | ha⟩ | ⟨hn, hlo, hhi⟩)
    · exact ⟨.cmd, _, ⟨hn, ha⟩, rfl⟩
    · exact ⟨.inLen, _, ⟨hn, ha⟩, rfl⟩
    · exact ⟨.inByte (addr - (s.cfg.base + 0x100000)), _, ⟨hn, by omega, by omega⟩, rfl⟩
  · rintro ⟨t, s', ht, hs'⟩
    cases t with
    | cmd => exact .inl ⟨ht.1, .inl ht.2⟩
    | inLen => exact .inl ⟨ht.1, .inr ht.2⟩
    | inByte i => obtain ⟨hn, hi, ha⟩ := ht; exact .inr ⟨hn, by omega⟩
    | status => exact nomatch hs'
    | outLen => exact nomatch hs'
    | outByte i => exact nomatch hs'

/-- A read that names no location. -/
theorem performAccess_read_none {s : State} {addr n : Nat} (h : target s.cfg addr n = none) :
    performAccess (.read addr n) s = s.respond .busError := by
  simp only [performAccess, h]

/-- A write that names no location. -/
theorem performAccess_write_none {s : State} {addr n v : Nat} (h : target s.cfg addr n = none) :
    performAccess (.write addr n v) s = s.respond .busError := by
  simp only [performAccess, h, Option.bind_none]

/-- An accepted access is answered with a value or as written (20_memory.md R52). -/
theorem performAccess_of_accepted {s : State} (hw : s.cfg.wf = true) {a : Access} (h : Accepted s.cfg a) :
    ∃ r, r ≠ .busError ∧ (performAccess a s).responses.head? = some r := by
  cases a with
  | read addr n =>
    obtain ⟨t, ht⟩ := (accepted_read_iff hw).1 h
    exact ⟨_, readTarget_ne_busError t s, by rw [performAccess_read ht, List.head?_cons]⟩
  | write addr n v =>
    obtain ⟨t, s', ht, hs'⟩ := (accepted_write_iff hw).1 h
    exact ⟨.written, nofun, by rw [performAccess_write ht hs', State.respond_responses, List.head?_cons]⟩

/-- Every other access, inside the window or outside it, is refused (20_memory.md R52, 60_exceptions.md R239). -/
theorem performAccess_of_not_accepted {s : State} (hw : s.cfg.wf = true) {a : Access} (h : ¬ Accepted s.cfg a) :
    performAccess a s = s.respond .busError := by
  cases a with
  | read addr n =>
    cases ht : target s.cfg addr n with
    | none => exact performAccess_read_none ht
    | some t => exact absurd ((accepted_read_iff hw).2 ⟨t, ht⟩) h
  | write addr n v =>
    cases ht : target s.cfg addr n with
    | none => exact performAccess_write_none ht
    | some t =>
      cases hs' : writeTarget t v s with
      | none => exact performAccess_write_refused ht hs'
      | some s' => exact absurd ((accepted_write_iff hw).2 ⟨t, s', ht, hs'⟩) h

/-! ### What a read answers -/

/-- An accepted read in terms of the answer and the draw counter of its location. -/
theorem performAccess_read_eq {s : State} {addr n d : Nat} {t : Target} {r : Response} (ht : target s.cfg addr n = some t)
    (hr : readTarget t s = (r, d)) : performAccess (.read addr n) s = { s with responses := r :: s.responses, draws := d } := by
  rw [performAccess_read ht, hr]

/-- A read records one answer, and of everything else only the draw counter can change (20_memory.md R56). -/
theorem performAccess_read_respond (s : State) (addr n : Nat) :
    ∃ r d, performAccess (.read addr n) s = { s with draws := d }.respond r := by
  cases ht : target s.cfg addr n with
  | none => exact ⟨_, s.draws, performAccess_read_none ht⟩
  | some t => exact ⟨(readTarget t s).1, (readTarget t s).2, performAccess_read ht⟩

theorem readTarget_outLen_idle {s : State} (hp : s.phase = .idle) : readTarget .outLen s = (.word s.outLen, s.draws) := by
  simp only [readTarget, hp]

theorem readTarget_outLen_busy {s : State} (hp : s.phase = .busy) :
    readTarget .outLen s = (.word (Config.drawWord s.draws), s.draws + 1) := by
  simp only [readTarget, hp]

theorem readTarget_inByte_some {s : State} {i : Nat} {b : Byte} (h : s.inMem.read i = some b) :
    readTarget (.inByte i) s = (.byte b, s.draws) := by
  simp only [readTarget, h, byteOrDraw]

theorem readTarget_inByte_none {s : State} {i : Nat} (h : s.inMem.read i = none) :
    readTarget (.inByte i) s = (.byte (Config.drawByte s.draws), s.draws + 1) := by
  simp only [readTarget, h, byteOrDraw]

theorem readTarget_outByte_some {s : State} {i : Nat} {b : Byte} (hp : s.phase = .idle) (hi : i < s.outLen.toNat)
    (h : s.outMem.read i = some b) : readTarget (.outByte i) s = (.byte b, s.draws) := by
  simp only [readTarget, hp, if_pos hi, h, byteOrDraw]

/-- A byte of OUT_MEM is unspecified while BUSY and from OUT_LEN on (10_state.md R27, 70_reset_and_hazards.md R266). -/
theorem readTarget_outByte_draw {s : State} {i : Nat} (h : s.phase = .busy ∨ s.outLen.toNat ≤ i) :
    readTarget (.outByte i) s = (.byte (Config.drawByte s.draws), s.draws + 1) := by
  cases hp : s.phase with
  | busy => simp only [readTarget, hp, byteOrDraw]
  | idle =>
    have hi : s.outLen.toNat ≤ i := h.resolve_left (by rw [hp]; nofun)
    simp only [readTarget, hp, if_neg (Nat.not_lt.2 hi), byteOrDraw]

/-! ### What a command's outcome depends on -/

/-- The input operand depends on the parameters, IN_LEN and the bytes below it (30_encoding.md R73). -/
theorem State.HasInput.congr {s s' : State} {x : List Byte} (h : s.HasInput x) (hcfg : s'.cfg = s.cfg) (hlen : s'.inLen = s.inLen)
    (hin : s'.input = s.input) : s'.HasInput x := by
  refine State.hasInput_of_input (hin.trans h.input) ?_
  rw [hlen, hcfg, h.len]
  exact h.inRange

/-- A completion sets STATUS, OUT_LEN and OUT_MEM from the result alone (30_encoding.md R82, 60_exceptions.md R236). -/
theorem State.complete_output_eq (s s' : State) (r : Except Err (List Byte)) : (s'.complete r).status = (s.complete r).status ∧
    (s'.complete r).outLen = (s.complete r).outLen ∧ (s'.complete r).outMem = (s.complete r).outMem := by
  cases r <;> exact ⟨rfl, rfl, rfl⟩

end Sys2Proof.Machine

/-! ### The obligations on the host port -/

namespace Sys2Proof.Proofs

open Sys2Proof.Machine

/-- Settles O15: the accepted accesses are those that name a location which takes them. -/
theorem busErrorsAreExactlyTheRest : Obligations.BusErrorsAreExactlyTheRest := by
  unfold Obligations.BusErrorsAreExactlyTheRest
  intro s a hw
  refine ⟨fun ha => ?_, fun ha _ _ => performAccess_of_not_accepted hw ha⟩
  obtain ⟨r, hr, hhead⟩ := performAccess_of_accepted hw ha
  rw [hhead]
  exact fun h => hr (Option.some.inj h)

/-- Settles O17: each read by its location. -/
theorem hostReadsReturn : Obligations.HostReadsReturn := by
  unfold Obligations.HostReadsReturn
  intro s hw
  have reg : ∀ off, off < 16 → target s.cfg (s.cfg.base + off) 4 = registerAt off := target_register s.cfg
  refine ⟨performAccess_read_eq (reg 0x0 (by decide)) rfl, performAccess_read_eq (reg 0x4 (by decide)) rfl,
    performAccess_read_eq (reg 0x8 (by decide)) rfl, fun hp => ?_, fun hp => ?_, fun i b hi hb => ?_, fun i hi hb => ?_,
    fun i b hi hp hlen hb => ?_, fun i hi h => ?_⟩
  · exact performAccess_read_eq (reg 0xC (by decide)) (readTarget_outLen_idle hp)
  · exact performAccess_read_eq (reg 0xC (by decide)) (readTarget_outLen_busy hp)
  · exact performAccess_read_eq (target_inByte_of_lt s.cfg i hw hi) (readTarget_inByte_some hb)
  · exact performAccess_read_eq (target_inByte_of_lt s.cfg i hw hi) (readTarget_inByte_none hb)
  · exact performAccess_read_eq (target_outByte_of_lt s.cfg i hw hi) (readTarget_outByte_some hp hlen hb)
  · exact performAccess_read_eq (target_outByte_of_lt s.cfg i hw hi) (readTarget_outByte_draw h)

/-- Settles O18: a read records one answer and can advance the draw counter, and does nothing else. -/
theorem readsHaveNoSideEffect : Obligations.ReadsHaveNoSideEffect := by
  unfold Obligations.ReadsHaveNoSideEffect
  intro s addr n
  obtain ⟨r, d, h⟩ := performAccess_read_respond s addr n
  rw [h]
  exact ⟨by constructor <;> rfl, rfl, rfl, rfl, rfl⟩

/-- Settles O45: the three ways a command can end, each decided by the parameters, IN_LEN and the input operand. -/
theorem resultDependsOnlyOnInput : Obligations.ResultDependsOnlyOnInput := by
  unfold Obligations.ResultDependsOnlyOnInput
  intro i s s' hcfg hlen hmem
  have hin : s'.input = s.input := State.input_congr hlen hmem
  simp only [exec_eq_runUnit, hcfg]
  rcases runUnit_cases (unitOf s.cfg.maxOut i) s with ⟨hr, h⟩ | ⟨hr, hn, h⟩ | ⟨x, hx, h⟩
  · rw [h]
    exact ⟨_, runUnit_of_inRange (by rwa [hcfg, hlen]), State.complete_output_eq s s' (.error .inRange)⟩
  · rw [h]
    exact runUnit_of_unwritten (by rwa [hcfg, hlen]) (hin.trans hn)
  · rw [h]
    exact ⟨_, runUnit_of_hasInput (hx.congr hcfg hlen hin), hcfg ▸ State.complete_output_eq s s' _⟩

/-- Settles O16: an address outside the window names no location. -/
theorem outsideTheWindowIsABusError : Obligations.OutsideTheWindowIsABusError := by
  unfold Obligations.OutsideTheWindowIsABusError
  intro s a h
  cases a with
  | read addr n => exact performAccess_read_none (target_outside n h)
  | write addr n v => exact performAccess_write_none (target_outside n h)

end Sys2Proof.Proofs

/-! # Encoding (30_encoding.md)

The command word and its decoder, the completion as the spec's `Execute`, and what the lines of a host script do. -/

namespace Sys2Proof.Machine

open Host

/-! ### The command word (R70 to R75) -/

theorem cmdWord_toNat (sel : BitVec 2) (op : BitVec 4) : (cmdWord sel op).toNat = sel.toNat * 16 + op.toNat := by
  have hop := op.isLt
  have h : sel.toNat <<< 4 ||| op.toNat = sel.toNat * 16 + op.toNat := by
    rw [← Nat.shiftLeft_add_eq_or_of_lt hop, Nat.shiftLeft_eq]
  unfold cmdWord
  rw [BitVec.toNat_append, BitVec.toNat_append]
  simpa using h

/-- A word without reserved bits is its two fields (R70). -/
theorem cmdWord_fields {w : Word} (hr : w.toNat / 64 = 0) : cmdWord (selField w) (opField w) = w := by
  apply BitVec.eq_of_toNat_eq
  rw [cmdWord_toNat, selField_toNat, opField_toNat]
  omega

theorem rsvdField_eq_zero_iff (w : Word) : rsvdField w = 0#26 ↔ w.toNat / 64 = 0 := by
  rw [← rsvdField_toNat, ← BitVec.toNat_inj]
  rfl

/-- What decoding a word answers, by the value of the word (R74, R75). -/
inductive DecodesTo (w : Word) : Except IllegalCause Instr → Prop where
  | legal {i : Instr} (h : encode i = w) : DecodesTo w (.ok i)
  | reservedBits (hr : w.toNat / 64 ≠ 0) : DecodesTo w (.error .reservedBits)
  | badOp (hr : w.toNat / 64 = 0) (hop : w.toNat % 16 = 0 ∨ 7 ≤ w.toNat % 16) : DecodesTo w (.error .badOp)
  | badSel (hr : w.toNat / 64 = 0) (hsel : (1 ≤ w.toNat % 16 ∧ w.toNat % 16 ≤ 5 ∧ w.toNat / 16 % 4 ≠ 0) ∨
      (w.toNat % 16 = 6 ∧ w.toNat / 16 % 4 = 3)) : DecodesTo w (.error .badSel)

/-- A command whose SEL must be 0, read from a word whose OP is its own. -/
theorem decodesTo_withSelZero {w : Word} {i : Instr} (hr : w.toNat / 64 = 0) (hlo : 1 ≤ w.toNat % 16) (hhi : w.toNat % 16 ≤ 5)
    (hi : encode i = cmdWord 0#2 (opField w)) : DecodesTo w (withSelZero (selField w) i) := by
  unfold withSelZero
  split
  next hsel => exact .legal (by rw [hi, ← hsel, cmdWord_fields hr])
  next hsel =>
    refine .badSel hr (.inl ⟨hlo, hhi, fun h => hsel ?_⟩)
    exact BitVec.eq_of_toNat_eq ((selField_toNat w).trans h)

/-- A word whose OP is the layer commands'. -/
theorem decodesTo_decodeLayer {w : Word} (hr : w.toNat / 64 = 0) (hop : opField w = 6#4) :
    DecodesTo w (decodeLayer (selField w)) := by
  have legal : ∀ {i : Instr} {sel : BitVec 2}, (selField w).toNat = sel.toNat → encode i = cmdWord sel 6#4 → DecodesTo w (.ok i) :=
    fun hsel hi => .legal (by rw [hi, ← BitVec.eq_of_toNat_eq hsel, ← hop, cmdWord_fields hr])
  unfold decodeLayer
  split
  next hsel => exact legal (sel := 0#2) hsel rfl
  next hsel => exact legal (sel := 1#2) hsel rfl
  next hsel => exact legal (sel := 2#2) hsel rfl
  next h0 h1 h2 =>
    refine .badSel hr (.inr ⟨?_, ?_⟩)
    · rw [← opField_toNat, hop]; rfl
    · simp only [selField_toNat, imp_false] at h0 h1 h2
      omega

theorem decodesTo_decode (w : Word) : DecodesTo w (decode w) := by
  unfold decode
  split
  case isFalse hr => exact .reservedBits fun h => hr ((rsvdField_eq_zero_iff w).2 h)
  case isTrue hr =>
    rw [rsvdField_eq_zero_iff] at hr
    have op : ∀ {b : BitVec 4}, (opField w).toNat = b.toNat → opField w = b := BitVec.eq_of_toNat_eq
    have selZero : ∀ {i : Instr} {b : BitVec 4}, (opField w).toNat = b.toNat → 1 ≤ b.toNat → b.toNat ≤ 5 →
        encode i = cmdWord 0#2 b → DecodesTo w (withSelZero (selField w) i) := fun hop hlo hhi hi => by
      rw [← hop, opField_toNat] at hlo hhi
      exact decodesTo_withSelZero hr hlo hhi (by rw [hi, op hop])
    split
    next hop => exact selZero (b := 1#4) hop (by decide) (by decide) rfl
    next hop => exact selZero (b := 2#4) hop (by decide) (by decide) rfl
    next hop => exact selZero (b := 3#4) hop (by decide) (by decide) rfl
    next hop => exact selZero (b := 4#4) hop (by decide) (by decide) rfl
    next hop => exact selZero (b := 5#4) hop (by decide) (by decide) rfl
    next hop => exact decodesTo_decodeLayer hr (op hop)
    next h1 h2 h3 h4 h5 h6 =>
      simp only [opField_toNat, imp_false] at h1 h2 h3 h4 h5 h6
      exact .badOp hr (by omega)

theorem decode_encode (i : Instr) : decode (encode i) = .ok i := by
  cases i <;> decide

theorem encode_of_decode {w : Word} {i : Instr} (h : decode w = .ok i) : encode i = w := by
  have hw := decodesTo_decode w
  rw [h] at hw
  cases hw with
  | legal hi => exact hi

theorem decode_eq_ok_iff {w : Word} {i : Instr} : decode w = .ok i ↔ w = encode i :=
  ⟨fun h => (encode_of_decode h).symm, fun h => h ▸ decode_encode i⟩

/-- A legal word has no reserved bit, and its OP and SEL pass the checks of R75. -/
theorem encode_fields (i : Instr) : (encode i).toNat / 64 = 0 ∧
    ((1 ≤ (encode i).toNat % 16 ∧ (encode i).toNat % 16 ≤ 5 ∧ (encode i).toNat / 16 % 4 = 0) ∨
      ((encode i).toNat % 16 = 6 ∧ (encode i).toNat / 16 % 4 ≤ 2)) := by
  cases i <;> decide

/-! ### The causes of an illegal word, each by its own check (R75) -/

theorem decode_eq_reservedBits_iff (w : Word) : decode w = .error .reservedBits ↔ w.toNat / 64 ≠ 0 := by
  have hw := decodesTo_decode w
  generalize decode w = r at hw
  cases hw with
  | @legal i h => subst h; simp [(encode_fields i).1]
  | reservedBits hr => simpa using hr
  | badOp hr hop => simp [hr]
  | badSel hr hsel => simp [hr]

theorem decode_eq_badOp_iff (w : Word) :
    decode w = .error .badOp ↔ w.toNat / 64 = 0 ∧ (w.toNat % 16 = 0 ∨ 7 ≤ w.toNat % 16) := by
  have hw := decodesTo_decode w
  generalize decode w = r at hw
  cases hw with
  | @legal i h =>
    subst h
    have := encode_fields i
    simp only [reduceCtorEq, false_iff]
    omega
  | reservedBits hr => simp [hr]
  | badOp hr hop => simp [hr, hop]
  | badSel hr hsel =>
    simp only [Except.error.injEq, reduceCtorEq, false_iff]
    omega

theorem decode_eq_badSel_iff (w : Word) : decode w = .error .badSel ↔ w.toNat / 64 = 0 ∧
    ((1 ≤ w.toNat % 16 ∧ w.toNat % 16 ≤ 5 ∧ w.toNat / 16 % 4 ≠ 0) ∨ (w.toNat % 16 = 6 ∧ w.toNat / 16 % 4 = 3)) := by
  have hw := decodesTo_decode w
  generalize decode w = r at hw
  cases hw with
  | @legal i h =>
    subst h
    have := encode_fields i
    simp only [reduceCtorEq, false_iff]
    omega
  | reservedBits hr => simp [hr]
  | badOp hr hop =>
    simp only [Except.error.injEq, reduceCtorEq, false_iff]
    omega
  | badSel hr hsel => simp only [hr, hsel, and_self]

/-! ### The completion as `Execute` (R81, R82) -/

theorem coreStep_of_illegal {s : State} {c : IllegalCause} (h : decode s.latch = .error c) :
    coreStep s = .next (s.completeErr (.illegal c)) := by
  simp only [coreStep, h]

/-- A due completion of an illegal word. -/
theorem step_illegal {s : State} {c : IllegalCause} (hp : s.phase = .busy) (hr : s.remaining = 0) (h : decode s.latch = .error c) :
    ∃ t, step s = .next t ∧ FailsWith s t (statusErr (.illegal c)) :=
  ⟨_, (step_complete hp hr).trans (coreStep_of_illegal h), s.failsWith_completeErr _⟩

/-- Every error and its value of STATUS stand in the table (60_exceptions.md R231). -/
theorem mem_errorTable (e : Err) : (e, statusErr e) ∈ errorTable := by
  cases e with
  | illegal c => cases c <;> decide
  | _ => decide

/-- The value of STATUS after an error as a number (60_exceptions.md R236). -/
theorem statusErr_eq_ofNat (e : Err) : statusErr e = BitVec.ofNat 32 (e.cause.toNat * 256 + e.code.toNat * 16 + 2) := by
  cases e with
  | illegal c => cases c <;> decide
  | _ => decide

/-- The pipeline of a selector is the layer command's (45_layer.md R211): the same checks in the same order. -/
theorem layerRef_eq (maxOut : Nat) (c : List Byte) : layerRef maxOut 0 c = layerNone maxOut c ∧
    layerRef maxOut 1 c = layerXor maxOut c ∧ layerRef maxOut 2 c = layerParpack maxOut c := by
  unfold layerRef layerNone layerXor layerParpack extractDecode
  cases extract c with
  | error e => exact ⟨rfl, rfl, rfl⟩
  | ok p =>
    by_cases hp : maxOut < p.length
    · simp [fitsOut, hp, Except.bind, Except.map]
    · cases hd : b85Decode p with
      | error e => simp [fitsOut, hp, hd, Except.bind, Except.map]
      | ok d => by_cases hl : maxOut < d.length <;> simp [fitsOut, hp, hd, hl, Except.bind, Except.map]

/-- The case on OP and SEL picks the command's unit function. -/
theorem unitRef_encode (maxOut : Nat) (i : Instr) (x : List Byte) :
    unitRef maxOut ((encode i).toNat % 16) ((encode i).toNat / 16 % 4) x = unitOf maxOut i x := by
  obtain ⟨hnone, hxor, hparpack⟩ := layerRef_eq maxOut x
  cases i with
  | layerNone => exact hnone
  | layerXor => exact hxor
  | layerParpack => exact hparpack
  | _ => rfl

/-- `Execute` on a legal word, from the check of IN_LEN on. -/
theorem executeRef_encode (c : Config) (i : Instr) (n : Nat) (m : Memory) : executeRef c (encode i).toNat n m =
    if c.maxIn < n then some (.error .inRange)
    else (m.readRange 0 n).map fun x => (unitOf c.maxOut i x).bind (fitsOut c.maxOut) := by
  obtain ⟨hr, hfields⟩ := encode_fields i
  unfold executeRef
  rw [if_neg (by omega), if_neg (by omega), if_neg (by omega)]
  simp only [unitRef_encode]
  split
  · rfl
  · cases m.readRange 0 n with
    | none => rfl
    | some x =>
      simp only [Option.map_some]
      cases unitOf c.maxOut i x with
      | error e => rfl
      | ok bs => simp only [Except.bind, fitsOut]; split <;> rfl

/-- `Execute` on an illegal word raises the cause the decoder names. -/
theorem executeRef_illegal (c : Config) {w : Word} {cause : IllegalCause} (n : Nat) (m : Memory) (h : decode w = .error cause) :
    executeRef c w.toNat n m = some (.error (.illegal cause)) := by
  have hw := decodesTo_decode w
  rw [h] at hw
  unfold executeRef
  cases hw with
  | reservedBits hr => rw [if_pos hr]
  | badOp hr hop => rw [if_neg (by omega), if_pos (by omega)]
  | badSel hr hsel => rw [if_neg (by omega), if_neg (by omega), if_pos (by omega)]

/-- What a returned or raised value of `Execute` makes of the state; none is its read of a NONE byte (R82, 60_exceptions.md R236, R238). -/
def State.finish (r : Option (Except Err (List Byte))) (s : State) : Outcome State Fault Refusal :=
  match r with
  | none => .fault .unwrittenInput
  | some r => .next (s.complete r)

/-- The core's completion is `Execute` and then completion with its result. -/
theorem coreStep_eq_executeRef (s : State) : coreStep s = s.finish (executeRef s.cfg s.latch.toNat s.inLen.toNat s.inMem) := by
  cases hd : decode s.latch with
  | error cause => rw [coreStep_of_illegal hd, executeRef_illegal _ _ _ hd]; rfl
  | ok i =>
    rw [coreStep_of_decode hd, exec_eq_runUnit, ← encode_of_decode hd, executeRef_encode, runUnit, State.input]
    split
    · rfl
    · cases s.inMem.readRange 0 s.inLen.toNat <;> rfl

/-- What `Execute` returns fits OUT_MEM (60_exceptions.md R234). -/
theorem length_le_of_executeRef {c : Config} {w : Word} {n : Nat} {m : Memory} {bs : List Byte}
    (h : executeRef c w.toNat n m = some (.ok bs)) : bs.length ≤ c.maxOut := by
  cases hd : decode w with
  | error cause => rw [executeRef_illegal _ _ _ hd] at h; cases h
  | ok i =>
    rw [← encode_of_decode hd, executeRef_encode] at h
    split at h
    · cases h
    · obtain ⟨x, _, hx⟩ := Option.map_eq_some_iff.1 h
      obtain ⟨r, _, hr⟩ := except_bind_ok hx
      obtain ⟨rfl, hl⟩ := fitsOut_eq_ok hr
      exact hl

end Sys2Proof.Machine

/-! ### The obligations on the command word and its completion -/

namespace Sys2Proof.Proofs

open Sys2Proof.Machine Host

/-- Settles O2: a word that decodes to a command has no reserved bit and the two fields of the command. -/
theorem decodeEncodeAgree : Obligations.DecodeEncodeAgree := by
  unfold Obligations.DecodeEncodeAgree
  exact ⟨decode_encode, fun _ _ => encode_of_decode⟩

/-- Settles O1: the legal words are the words of the eight commands. -/
theorem legalWordsAreExactlyEight : Obligations.LegalWordsAreExactlyEight := by
  unfold Obligations.LegalWordsAreExactlyEight
  intro w i
  rw [decode_eq_ok_iff]
  cases i <;> simp [encode, cmdWord]

/-- Settles O3: the three causes by the checks of R75. -/
theorem illegalWordClassification : Obligations.IllegalWordClassification := by
  unfold Obligations.IllegalWordClassification
  exact fun w => ⟨decode_eq_reservedBits_iff w, decode_eq_badOp_iff w, decode_eq_badSel_iff w⟩

/-- Settles O6: the cause of the word, and the error completion with it. -/
theorem illegalWordsCompleteWithTheirCause : Obligations.IllegalWordsCompleteWithTheirCause := by
  unfold Obligations.IllegalWordsCompleteWithTheirCause
  intro s hp hr
  refine ⟨fun hres => ?_, fun hres hop => ?_, fun hres hlo hhi hsel => ?_, fun hres hop hsel => ?_⟩
  · exact step_illegal hp hr ((decode_eq_reservedBits_iff _).2 hres)
  · exact step_illegal hp hr ((decode_eq_badOp_iff _).2 ⟨hres, hop⟩)
  · exact step_illegal hp hr ((decode_eq_badSel_iff _).2 ⟨hres, .inl ⟨hlo, hhi, hsel⟩⟩)
  · exact step_illegal hp hr ((decode_eq_badSel_iff _).2 ⟨hres, .inr ⟨hop, hsel⟩⟩)

/-- Settles O7: the three ways `Execute` can end. -/
theorem completionRefinesExecute : Obligations.CompletionRefinesExecute := by
  unfold Obligations.CompletionRefinesExecute
  intro s hp hr
  rw [step_complete hp hr, coreStep_eq_executeRef]
  cases hx : executeRef s.cfg s.latch.toNat s.inLen.toNat s.inMem with
  | none => rfl
  | some r =>
    cases r with
    | error e => exact ⟨_, _, mem_errorTable e, statusErr_eq_ofNat e, rfl, s.failsWith_completeErr e⟩
    | ok bs =>
      refine ⟨rfl, fun hw => s.succeeds_completeOk bs ?_⟩
      exact Nat.lt_of_le_of_lt (length_le_of_executeRef hx) (Config.maxOut_lt s.cfg hw)

/-- Settles O11: at the end of LATENCY the block is the one issued, and its completion leaves IDLE and DONE. -/
theorem issuedCommandCompletes : Obligations.IssuedCommandCompletes := by
  unfold Obligations.IssuedCommandCompletes
  intro s hp hn hnu
  have h := run_latency_sameOutcome (.refl s) hp hn
  obtain ⟨u, hu⟩ := coreStep_total s hnu
  obtain ⟨hidle, hdone, hbusy⟩ := coreStep_done hu
  rw [hu] at h
  generalize Core.run core (s.remaining + 1) s = later at h ⊢
  cases h with
  | next hb => exact ⟨_, rfl, hb.phase.trans hidle, hb.status ▸ hdone, hb.status ▸ hbusy⟩

/-- Settles O4: three of the words are the commands' words, and the fourth has SEL 3 with OP 6. -/
theorem writtenOutWordsDecode : Obligations.WrittenOutWordsDecode := by
  unfold Obligations.WrittenOutWordsDecode
  exact ⟨decode_encode .extract, decode_encode .pack, decode_encode .layerParpack, (decode_eq_badSel_iff _).2 (by decide)⟩

end Sys2Proof.Proofs

/-! ## Host scripts (R78 to R80)

What each line of a script does in its step, and the runs of the pseudo-instructions. -/

namespace Sys2Proof.Machine

open Host

/-! ### The accesses of a script's lines -/

theorem performAccess_r32_status (s : State) :
    performAccess (r32 s.cfg statusOffset) s = s.respond (.word s.status) :=
  performAccess_read_eq (target_register s.cfg statusOffset (by decide)) rfl

theorem performAccess_r32_outLen {s : State} (hp : s.phase = .idle) :
    performAccess (r32 s.cfg outLenOffset) s = s.respond (.word s.outLen) :=
  performAccess_read_eq (target_register s.cfg outLenOffset (by decide)) (readTarget_outLen_idle hp)

theorem performAccess_w32_inLen {s : State} (hp : s.phase = .idle) (v : Nat) :
    performAccess (w32 s.cfg inLenOffset v) s = { s with inLen := BitVec.ofNat 32 v }.respond .written := by
  rw [w32, performAccess_write (target_register s.cfg inLenOffset (by decide)) rfl, ignoreWhileBusy_idle _ hp]

theorem performAccess_w8In {s : State} (hw : s.cfg.wf = true) (hp : s.phase = .idle) {k : Nat} (hk : k < s.cfg.maxIn) (b : Byte) :
    performAccess (w8In s.cfg k b) s = { s with inMem := s.inMem.write k b }.respond .written := by
  rw [w8In, performAccess_write (target_inByte_of_lt s.cfg k hw hk) rfl, ignoreWhileBusy_idle _ hp, BitVec.ofNat_toNat,
    BitVec.setWidth_eq]

/-- A write of a word to CMD: an issue while IDLE, ignored while BUSY (R80; 70_reset_and_hazards.md R265). -/
theorem performAccess_w32_cmd (s : State) (w : Word) :
    performAccess (w32 s.cfg cmdOffset w.toNat) s = (ignoreWhileBusy s (s.issue w)).respond .written := by
  rw [w32, performAccess_write (target_register s.cfg cmdOffset (by decide)) rfl, BitVec.ofNat_toNat, BitVec.setWidth_eq]

/-! ### LOADIN -/

theorem step_loadIn_nil {s : State} {k : Nat} {ls : List Input} (hp : s.phase = .idle) (hls : s.inputs = .loadIn k [] :: ls) :
    step s = .next { s with inLen := BitVec.ofNat 32 k, inputs := ls, responses := .written :: s.responses } :=
  (step_host hp hls).trans (congrArg Outcome.next (performAccess_w32_inLen (s := { s with inputs := ls }) hp k))

theorem step_loadIn_cons {s : State} {k : Nat} {b : Byte} {bs : List Byte} {ls : List Input} (hw : s.cfg.wf = true)
    (hp : s.phase = .idle) (hk : k < s.cfg.maxIn) (hls : s.inputs = .loadIn k (b :: bs) :: ls) :
    step s = .next { s with
      inMem := s.inMem.write k b
      inputs := .loadIn (k + 1) bs :: ls
      responses := .written :: s.responses } :=
  have ha := performAccess_w8In (s := { s with inputs := ls }) hw hp hk b
  (step_host hp hls).trans (congrArg (fun t => Outcome.next (t.pushInputs [.loadIn (k + 1) bs])) ha)

/-- LOADIN with the bytes `bs` left to write from index `k` on, by induction on `bs`. -/
theorem run_loadIn {s : State} {k : Nat} {bs : List Byte} {ls : List Input} (hw : s.cfg.wf = true) (hp : s.phase = .idle)
    (hk : k + bs.length ≤ s.cfg.maxIn) (hls : s.inputs = .loadIn k bs :: ls) :
    ∃ t, Core.run core (bs.length + 1) s = .next t ∧ t.inputs = ls ∧
      SameBlock { s with inMem := s.inMem.writeRange k bs, inLen := BitVec.ofNat 32 (k + bs.length) } t := by
  induction bs generalizing s k with
  | nil => exact ⟨_, (run_core_one s).trans (step_loadIn_nil hp hls), rfl, by constructor <;> rfl⟩
  | cons b bs ih =>
    rw [List.length_cons] at hk
    have hstep := step_loadIn_cons hw hp (by omega) hls
    obtain ⟨t, hrun, hinputs, hb⟩ := ih (k := k + 1) (s := { s with
      inMem := s.inMem.write k b
      inputs := .loadIn (k + 1) bs :: ls
      responses := .written :: s.responses }) hw hp (by show k + 1 + bs.length ≤ s.cfg.maxIn; omega) rfl
    refine ⟨t, (run_core_succ _ hstep).trans hrun, hinputs, SameBlock.trans ?_ hb⟩
    rw [List.length_cons, show k + (bs.length + 1) = k + 1 + bs.length by omega]
    constructor <;> rfl

/-- The net effect of LOADIN depends on the block alone. -/
theorem SameBlock.loadInput {s u : State} (h : SameBlock s u) (bs : List Byte) : SameBlock (s.loadInput bs) (u.loadInput bs) where
  cmd := h.cmd
  status := h.status
  inLen := rfl
  outLen := h.outLen
  inMem := congrArg (Memory.writeRange · 0 bs) h.inMem
  outMem := h.outMem
  phase := h.phase
  latch := h.latch
  cfg := h.cfg

/-- A loaded block has the bytes as its input, and every other byte of IN_MEM is as before. -/
theorem hasInput_of_loadInput {s t : State} {bs : List Byte} (hw : s.cfg.wf = true) (hl : bs.length ≤ s.cfg.maxIn)
    (h : SameBlock (s.loadInput bs) t) : t.HasInput bs ∧ ∀ i, bs.length ≤ i → t.inMem.read i = s.inMem.read i := by
  have hmax := ((Config.wf_iff s.cfg).1 hw).2.1
  have hread : ∀ i, t.inMem.read i = if 0 ≤ i ∧ i < 0 + bs.length then bs[i - 0]? else s.inMem.read i := fun i => by
    rw [h.inMem]
    exact Memory.read_writeRange s.inMem 0 bs i
  refine ⟨⟨?_, ?_, fun i hi => ?_⟩, fun i hi => ?_⟩
  · rw [h.inLen]
    exact Nat.mod_eq_of_lt (by omega)
  · rw [h.cfg]
    exact hl
  · rw [hread, if_pos (by omega), Nat.sub_zero]
  · rw [hread, if_neg (by omega)]

/-! ### READOUT and CHAIN -/

/-- An idle block within the parameter bounds whose output is `out`. -/
structure State.HasOutput (s : State) (out : List Byte) : Prop where
  cfg_wf : s.cfg.wf = true
  phase : s.phase = .idle
  len : s.outLen.toNat = out.length
  bytes : s.outMem.Holds out
  bound : out.length ≤ s.cfg.maxOut

theorem State.HasOutput.of_sameBlock {s t : State} {out : List Byte} (h : s.HasOutput out) (hb : SameBlock s t) :
    t.HasOutput out where
  cfg_wf := hb.cfg ▸ h.cfg_wf
  phase := hb.phase ▸ h.phase
  len := hb.outLen ▸ h.len
  bytes := hb.outMem ▸ h.bytes
  bound := hb.cfg ▸ h.bound

/-- Only the script and the record of answers differ. -/
theorem sameBlock_script (s : State) (ls : List Input) (rs : List Response) : SameBlock s { s with inputs := ls, responses := rs } := by
  constructor <;> rfl

theorem State.HasOutput.performAccess_r8Out {s : State} {out : List Byte} {k : Nat} (h : s.HasOutput out) (hk : k < out.length) :
    performAccess (r8Out s.cfg k) s = s.respond (.byte out[k]) := by
  have hbound := h.bound
  have hread : s.outMem.read k = some out[k] := (h.bytes k).trans (List.getElem?_eq_getElem hk)
  exact performAccess_read_eq (target_outByte_of_lt s.cfg k h.cfg_wf (by omega))
    (readTarget_outByte_some h.phase (by rw [h.len]; exact hk) hread)

theorem step_readOut {s : State} {ls : List Input} (hp : s.phase = .idle) (hls : s.inputs = .readOut :: ls) :
    step s = .next { s with inputs := readOutRest 0 s.outLen.toNat ++ ls, responses := .word s.outLen :: s.responses } :=
  have ha := performAccess_r32_outLen (s := { s with inputs := ls }) hp
  (step_host hp hls).trans (congrArg (fun t => Outcome.next (t.pushInputs (readOutRest 0 t.lastWord.toNat))) ha)

theorem step_chain {s : State} {ls : List Input} (hp : s.phase = .idle) (hls : s.inputs = .chain :: ls) :
    step s = .next { s with inputs := chainRest 0 s.outLen.toNat [] ++ ls, responses := .word s.outLen :: s.responses } :=
  have ha := performAccess_r32_outLen (s := { s with inputs := ls }) hp
  (step_host hp hls).trans (congrArg (fun t => Outcome.next (t.pushInputs (chainRest 0 t.lastWord.toNat []))) ha)

theorem step_readOutFrom {s : State} {out : List Byte} {k n : Nat} {ls : List Input} (h : s.HasOutput out) (hk : k < out.length)
    (hls : s.inputs = .readOutFrom k n :: ls) :
    step s = .next { s with inputs := readOutRest (k + 1) n ++ ls, responses := .byte out[k] :: s.responses } :=
  have ha := (h.of_sameBlock (sameBlock_script s ls s.responses)).performAccess_r8Out hk
  (step_host h.phase hls).trans (congrArg (fun t => Outcome.next (t.pushInputs (readOutRest (k + 1) n))) ha)

theorem step_chainFrom {s : State} {out : List Byte} {k n : Nat} {got : List Byte} {ls : List Input} (h : s.HasOutput out)
    (hk : k < out.length) (hls : s.inputs = .chainFrom k n got :: ls) :
    step s = .next { s with inputs := chainRest (k + 1) n (got ++ [out[k]]) ++ ls, responses := .byte out[k] :: s.responses } :=
  have ha := (h.of_sameBlock (sameBlock_script s ls s.responses)).performAccess_r8Out hk
  (step_host h.phase hls).trans (congrArg (fun t => Outcome.next (t.pushInputs (chainRest (k + 1) n (got ++ t.lastByte)))) ha)

/-- READOUT with the bytes of the output from index `k` on left to read, by induction on their number. -/
theorem run_readOutRest {s : State} {out : List Byte} {ls : List Input} {k m : Nat} (h : s.HasOutput out) (hm : k + m = out.length)
    (hls : s.inputs = readOutRest k out.length ++ ls) : Core.run core m s =
      .next { s with inputs := ls, responses := ((out.drop k).map Response.byte).reverse ++ s.responses } := by
  induction m generalizing s k with
  | zero =>
    have hrest : readOutRest k out.length = [] := if_neg (by omega)
    have hdrop : out.drop k = [] := List.drop_eq_nil_of_le (by omega)
    rw [hrest, List.nil_append] at hls
    rw [hdrop, ← hls]
    rfl
  | succ m ih =>
    have hk : k < out.length := by omega
    have hrest : readOutRest k out.length = [.readOutFrom k out.length] := if_pos hk
    rw [hrest] at hls
    have hb := sameBlock_script s (readOutRest (k + 1) out.length ++ ls) (.byte out[k] :: s.responses)
    have hrun := ih (h.of_sameBlock hb) (by omega) rfl
    rw [List.drop_eq_getElem_cons hk, List.map_cons, List.reverse_cons, List.append_assoc]
    exact (run_core_succ _ (step_readOutFrom h hk hls)).trans hrun

/-- CHAIN with the bytes of the output from index `k` on left to read, by induction on their number: what is left then is LOADIN of
the whole output. -/
theorem run_chainRest {s : State} {out : List Byte} {ls : List Input} {k m : Nat} (h : s.HasOutput out) (hm : k + m = out.length)
    (hls : s.inputs = chainRest k out.length (out.take k) ++ ls) :
    ∃ t, Core.run core m s = .next t ∧ SameBlock s t ∧ t.inputs = .loadIn 0 out :: ls := by
  induction m generalizing s k with
  | zero =>
    have hrest : chainRest k out.length (out.take k) = [.loadIn 0 out] := by
      rw [chainRest, if_neg (by omega), List.take_of_length_le (by omega)]
    rw [hrest] at hls
    exact ⟨s, rfl, .refl s, hls⟩
  | succ m ih =>
    have hk : k < out.length := by omega
    have hrest : chainRest k out.length (out.take k) = [.chainFrom k out.length (out.take k)] := if_pos hk
    rw [hrest] at hls
    have hstep := step_chainFrom h hk hls
    rw [List.take_append_getElem hk] at hstep
    have hb := sameBlock_script s (chainRest (k + 1) out.length (out.take (k + 1)) ++ ls) (.byte out[k] :: s.responses)
    obtain ⟨t, hrun, hbt, hinputs⟩ := ih (h.of_sameBlock hb) (by omega) rfl
    exact ⟨t, (run_core_succ _ hstep).trans hrun, hb.trans hbt, hinputs⟩

/-! ### WAIT -/

/-- One turn of WAIT: a read of STATUS, and the line again where DONE is not set. -/
theorem hostTurn_wait {s : State} {ls : List Input} (hls : s.inputs = .wait :: ls) :
    hostTurn s = { s with
      inputs := if statusDone s.status then ls else .wait :: ls
      responses := .word s.status :: s.responses } := by
  rw [hostTurn, hls]
  simp only [performInput]
  rw [performAccess_r32_status { s with inputs := ls }]
  split
  next h => rw [if_pos (by exact h)]; rfl
  next h => rw [if_neg (by exact h)]; rfl

/-- A step of LATENCY in which WAIT reads STATUS without DONE leaves the block alone and the line in the script. -/
theorem step_wait_pending {s : State} {ls : List Input} (hp : s.phase = .busy) (hr : s.remaining ≠ 0)
    (hdone : statusDone s.status = false) (hls : s.inputs = .wait :: ls) : ∃ u, step s = .next u ∧ SameBlock s u ∧
      u.remaining = s.remaining - 1 ∧ u.inputs = .wait :: ls ∧ u.responses = .word s.status :: s.responses := by
  have hturn := hostTurn_wait (s := s.tick) hls
  rw [State.tick_status, if_neg (by rw [hdone]; decide)] at hturn
  refine ⟨_, step_wait hp hr, ?_⟩
  rw [hturn]
  exact ⟨by constructor <;> rfl, rfl, rfl, rfl⟩

/-- A value read is no bus error. -/
theorem busErrors_of_word {s t : State} {v : Word} (h : t.responses = .word v :: s.responses) : t.busErrors = s.busErrors := by
  rw [State.busErrors, h, List.count_cons_of_ne (by simp)]
  rfl

/-- WAIT while a command that cannot fault runs, by induction on the steps of LATENCY left. -/
theorem run_wait {s : State} {ls : List Input} (hp : s.phase = .busy) (hs : s.status = 0x00000001#32) (hnu : s.NoUnwritten)
    (hls : s.inputs = .wait :: ls) : ∃ t, Core.run core (s.remaining + 2) s = .next t ∧ t.phase = .idle ∧ t.inputs = ls ∧
      t.responses.head? = some (.word t.status) ∧ statusDone t.status = true ∧ t.busErrors = s.busErrors := by
  induction hr : s.remaining generalizing s with
  | zero =>
    obtain ⟨u, hu⟩ := coreStep_total s hnu
    obtain ⟨hidle, hdone, _⟩ := coreStep_done hu
    have hframe := coreStep_sameButOutput hu
    have hturn := hostTurn_wait (hframe.inputs.trans hls)
    rw [if_pos hdone] at hturn
    refine ⟨hostTurn u, ?_, ?_⟩
    · exact (run_core_succ _ ((step_complete hp hr).trans hu)).trans ((run_core_one u).trans (step_idle hidle))
    · rw [hturn]
      exact ⟨hidle, rfl, rfl, hdone, busErrors_of_word (by rw [hframe.responses])⟩
  | succ n ih =>
    obtain ⟨u, hstep, hb, hrem, hinputs, hresp⟩ := step_wait_pending hp (by omega) (by rw [hs]; decide) hls
    obtain ⟨t, hrun, hidle, hrest, hhead, hdone, herr⟩ :=
      ih (hb.phase.trans hp) (hb.status.trans hs) (hnu.of_sameBlock hb) hinputs (by omega)
    exact ⟨t, (run_core_succ _ hstep).trans hrun, hidle, hrest, hhead, hdone, herr.trans (busErrors_of_word hresp)⟩

end Sys2Proof.Machine

/-! ### The obligations on host scripts -/

namespace Sys2Proof.Proofs

open Sys2Proof.Machine Host

/-- Settles O52: one step for each byte and one for IN_LEN. -/
theorem loadInWritesTheInput : Obligations.LoadInWritesTheInput := by
  unfold Obligations.LoadInWritesTheInput
  intro s bs ls hw hp hl hls
  obtain ⟨t, hrun, hinputs, hb⟩ := run_loadIn hw hp (by omega) hls
  have hb : SameBlock (s.loadInput bs) t := by rwa [Nat.zero_add] at hb
  exact ⟨t, hrun, hb, hinputs, hasInput_of_loadInput hw hl hb⟩

/-- Settles O53: WAIT repeats until the completion, and its next read shows DONE. -/
theorem waitEnds : Obligations.WaitEnds := by
  unfold Obligations.WaitEnds
  intro s ls _ hp hs hnu hls
  obtain ⟨t, hrun, hidle, hinputs, hhead, hdone, herr⟩ := run_wait hp hs hnu hls
  exact ⟨t, t.status, hrun, hidle, hinputs, rfl, hhead, hdone, herr⟩

/-- Settles O54: the read of OUT_LEN, the reads of the bytes, and then LOADIN of what they gave. -/
theorem chainCopiesOutputToInput : Obligations.ChainCopiesOutputToInput := by
  unfold Obligations.ChainCopiesOutputToInput
  intro s out ls hw hp hlen hout hmax hin hls
  have hstep := step_chain hp hls
  rw [hlen] at hstep
  have hb := sameBlock_script s (chainRest 0 out.length [] ++ ls) (.word s.outLen :: s.responses)
  have ho : s.HasOutput out := ⟨hw, hp, hlen, hout, hmax⟩
  obtain ⟨u, hreads, hbu, hload⟩ := run_chainRest (k := 0) (ho.of_sameBlock hb) (Nat.zero_add _) rfl
  have hbu := hb.trans hbu
  have hou := ho.of_sameBlock hbu
  obtain ⟨t, hrun, hinputs, hbt⟩ := run_loadIn hou.cfg_wf hou.phase (by rw [hbu.cfg]; omega) hload
  rw [Nat.zero_add] at hbt
  have hbt : SameBlock (s.loadInput out) t := (hbu.loadInput out).trans hbt
  refine ⟨t, ?_, hbt, hinputs, hasInput_of_loadInput hw hin hbt⟩
  calc Core.run core (2 * out.length + 2) s
      = Core.run core (out.length + 1 + (out.length + 1)) s := by congr 1; omega
    _ = Core.run core (out.length + 1) u := run_add _ _ _ _ ((run_core_succ _ hstep).trans hreads)
    _ = .next t := hrun

/-- Settles O55: the read of OUT_LEN, and then the reads of the bytes. -/
theorem readOutReturnsTheOutput : Obligations.ReadOutReturnsTheOutput := by
  unfold Obligations.ReadOutReturnsTheOutput
  intro s out ls hw hp hlen hout hmax hls
  have hstep := step_readOut hp hls
  rw [hlen] at hstep
  have hb := sameBlock_script s (readOutRest 0 out.length ++ ls) (.word s.outLen :: s.responses)
  have ho : s.HasOutput out := ⟨hw, hp, hlen, hout, hmax⟩
  have hreads := run_readOutRest (k := 0) (ho.of_sameBlock hb) (Nat.zero_add _) rfl
  exact ⟨_, (run_core_succ _ hstep).trans hreads, by constructor <;> rfl, rfl, rfl, rfl⟩

/-- Settles O8: the write to CMD is an issue while IDLE and is ignored while BUSY. -/
theorem cmdWriteIssues : Obligations.CmdWriteIssues := by
  unfold Obligations.CmdWriteIssues
  intro s w _
  refine ⟨fun hp ls hls => ?_, fun hp => ?_⟩
  · have ha := performAccess_w32_cmd { s with inputs := ls } w
    rw [ignoreWhileBusy_idle _ (by exact hp)] at ha
    exact ⟨_, (step_host hp hls).trans (congrArg Outcome.next ha), rfl, rfl, rfl, rfl, Memory.holds_nil, rfl, rfl, rfl, rfl, rfl,
      rfl, rfl, rfl, rfl⟩
  · have ha := performAccess_w32_cmd s w
    rw [ignoreWhileBusy_busy _ hp] at ha
    exact ha

/-- Settles O51: the line of the script is the access, and RUN leaves the line WAIT in front of the script. -/
theorem runIsIssueThenWait : Obligations.RunIsIssueThenWait := by
  unfold Obligations.RunIsIssueThenWait
  intro s i ls hp
  have host : ∀ l ls, step { s with inputs := l :: ls } = .next (performInput l { s with inputs := ls }) :=
    fun l ls => step_host hp rfl
  rw [host, host, host, host]
  refine ⟨rfl, ?_⟩
  simp only [performInput]
  rw [performAccess_inputs _ s ls, performAccess_inputs _ s (.wait :: ls)]
  rfl

end Sys2Proof.Proofs

/-! # Extraction (40_extract.md)

How a command completes with the result of its unit function, what the two marker searches give, and the statements on EXTRACT. -/

namespace Sys2Proof.Machine

/-! ### A command's completion, by the result of its unit function -/

theorem exec_fails {i : Instr} {s : State} {x : List Byte} {e : Err} (hx : s.HasInput x)
    (hu : unitOf s.cfg.maxOut i x = .error e) : ∃ t, exec i s = .next t ∧ FailsWith s t (statusErr e) := by
  refine ⟨s.completeErr e, ?_, s.failsWith_completeErr e⟩
  rw [exec_eq_runUnit, runUnit_of_hasInput hx, hu]
  rfl

theorem exec_succeeds {i : Instr} {s : State} {x bs : List Byte} (hw : s.cfg.wf = true) (hx : s.HasInput x)
    (hu : unitOf s.cfg.maxOut i x = .ok bs) (hl : bs.length ≤ s.cfg.maxOut) : ∃ t, exec i s = .next t ∧ Succeeds s t bs := by
  refine ⟨s.completeOk bs, ?_, s.succeeds_completeOk bs (hl.trans_lt (Config.maxOut_lt s.cfg hw))⟩
  rw [exec_eq_runUnit, runUnit_of_hasInput hx, hu, Except.bind, fitsOut_of_le hl]
  rfl

/-- A result that does not fit OUT_MEM is the error OUT_RANGE (60_exceptions.md R234). -/
theorem exec_outRange {i : Instr} {s : State} {x bs : List Byte} (hx : s.HasInput x)
    (hu : unitOf s.cfg.maxOut i x = .ok bs) (hl : s.cfg.maxOut < bs.length) :
    ∃ t, exec i s = .next t ∧ FailsWith s t (statusErr .outRange) := by
  refine ⟨s.completeErr .outRange, ?_, s.failsWith_completeErr .outRange⟩
  rw [exec_eq_runUnit, runUnit_of_hasInput hx, hu, Except.bind, fitsOut_of_lt hl]
  rfl

/-! ### The stripped bytes -/

theorem isWhitespace_iff (b : Byte) : isWhitespace b = true ↔ b ∈ [0x09#8, 0x0A#8, 0x0B#8, 0x0C#8, 0x0D#8, 0x20#8] :=
  List.contains_iff_mem

theorem not_isWhitespace (b : Byte) : (!isWhitespace b) = decide (b ∉ [0x09#8, 0x0A#8, 0x0B#8, 0x0C#8, 0x0D#8, 0x20#8]) := by
  rw [Bool.eq_iff_iff, Bool.not_eq_true', decide_eq_true_iff, ← isWhitespace_iff, Bool.not_eq_true]

/-! ### The marker searches -/

/-- A byte that does not begin the pair can stand in front of a sequence without the pair. -/
theorem NoPair.cons {a b x : Byte} {l : List Byte} (h : NoPair a b l 0) (hx : x ≠ a) : NoPair a b (x :: l) 0 := by
  intro j _ hj
  cases j with
  | zero => exact hx (Option.some.inj hj.1)
  | succ j => exact h j (Nat.zero_le j) hj

/-- After bytes without the pair, the pair stands first where it is appended: with `a ≠ b` it cannot begin at the last of them. -/
theorem NoPair.firstPair_append {a b : Byte} {pre : List Byte} (h : NoPair a b pre 0) (hab : a ≠ b) (post : List Byte) :
    FirstPair a b (pre ++ a :: b :: post) 0 pre.length := by
  refine ⟨⟨Nat.zero_le _, by simp, by simp⟩, fun j _ hj hpair => ?_⟩
  obtain ⟨ha, hb⟩ := hpair
  rw [List.getElem?_append_left hj] at ha
  rcases Nat.lt_or_ge (j + 1) pre.length with hlt | hge
  · rw [List.getElem?_append_left hlt] at hb
    exact h j (Nat.zero_le j) ⟨ha, hb⟩
  · have hend : j + 1 = pre.length := by omega
    rw [hend, List.getElem?_append_right (Nat.le_refl _), Nat.sub_self] at hb
    exact hab (Option.some.inj hb)

/-- What stands from a pair on. -/
theorem FirstPair.drop_eq {a b : Byte} {l : List Byte} {k i : Nat} (h : FirstPair a b l k i) :
    l.drop i = a :: b :: l.drop (i + 2) := by
  obtain ⟨⟨_, ha, hb⟩, _⟩ := h
  obtain ⟨hi, rfl⟩ := List.getElem?_eq_some_iff.1 ha
  obtain ⟨hi', rfl⟩ := List.getElem?_eq_some_iff.1 hb
  rw [List.drop_eq_getElem_cons hi, List.drop_eq_getElem_cons hi']

/-- The bytes from the start marker to the end marker (40_extract.md R104): the two overlap in one byte, or they bracket the rest. -/
theorem FirstPair.span_eq {c : List Byte} {i j : Nat} (hs : FirstPair 0x3C#8 0x7E#8 c 0 i) (he : FirstPair 0x7E#8 0x3E#8 c i j) :
    (c.drop i).take (j + 2 - i) = [0x3C#8, 0x7E#8, 0x3E#8] ∨
    ∃ x, (c.drop i).take (j + 2 - i) = [0x3C#8, 0x7E#8] ++ x ++ [0x7E#8, 0x3E#8] := by
  have hij : i ≤ j := he.1.1
  have hne : i ≠ j := by
    rintro rfl
    exact absurd (hs.1.2.1.symm.trans he.1.2.1) (by decide)
  rw [hs.drop_eq]
  rcases Nat.eq_or_lt_of_le (show i + 1 ≤ j by omega) with rfl | hlt
  · have hend : (c.drop (i + 2)).head? = some 0x3E#8 := by rw [List.head?_drop]; exact he.1.2.2
    obtain ⟨r, hr⟩ := List.head?_eq_some_iff.1 hend
    left
    rw [hr, show i + 1 + 2 - i = 3 by omega]
    rfl
  · right
    refine ⟨(c.drop (i + 2)).take (j - (i + 2)), ?_⟩
    have hrest : (c.drop (i + 2)).drop (j - (i + 2)) = 0x7E#8 :: 0x3E#8 :: c.drop (j + 2) := by
      rw [List.drop_drop, show i + 2 + (j - (i + 2)) = j by omega, he.drop_eq]
    rw [show j + 2 - i = (j - (i + 2) + 2) + 2 by omega, List.take_succ_cons, List.take_succ_cons, List.take_add, hrest]
    rfl

/-! ### The extractor -/

theorem extract_of_noStart {c : List Byte} (h : NoPair 0x3C#8 0x7E#8 c 0) : extract c = .error .startMissing := by
  rw [extract, (findPair_none _ _ _).2 h]

theorem extract_of_noEnd {c : List Byte} {i : Nat} (hs : FirstPair 0x3C#8 0x7E#8 c 0 i) (he : NoPair 0x7E#8 0x3E#8 c i) :
    extract c = .error .endMissing := by
  simp only [extract, (findPair_some _ _ _ _).2 hs, (findPair_none _ _ _).2 ((noPair_drop _ _ _ _).2 he)]

theorem extract_of_markers {c : List Byte} {i j : Nat} (hs : FirstPair 0x3C#8 0x7E#8 c 0 i) (he : FirstPair 0x7E#8 0x3E#8 c i j) :
    extract c = .ok (((c.drop i).take (j + 2 - i)).filter fun b => !isWhitespace b) := by
  obtain ⟨k, rfl⟩ := Nat.exists_eq_add_of_le he.1.1
  simp only [extract, (findPair_some _ _ _ _).2 hs, (findPair_some _ _ _ _).2 ((firstPair_drop _ _ _ _ _).2 he)]
  rw [show i + k + 2 - i = k + 2 by omega]

/-- A success has both markers. -/
theorem markers_of_extract {c p : List Byte} (h : extract c = .ok p) :
    ∃ i j, FirstPair 0x3C#8 0x7E#8 c 0 i ∧ FirstPair 0x7E#8 0x3E#8 c i j ∧
      p = ((c.drop i).take (j + 2 - i)).filter fun b => !isWhitespace b := by
  cases hs : findPair 0x3C#8 0x7E#8 c with
  | none => rw [extract_of_noStart ((findPair_none _ _ _).1 hs)] at h; cases h
  | some i =>
    have hs := (findPair_some _ _ _ _).1 hs
    cases he : findPair 0x7E#8 0x3E#8 (c.drop i) with
    | none => rw [extract_of_noEnd hs ((noPair_drop _ _ _ _).1 ((findPair_none _ _ _).1 he))] at h; cases h
    | some k =>
      have he := (firstPair_drop _ _ _ _ _).1 ((findPair_some _ _ _ _).1 he)
      rw [extract_of_markers hs he] at h
      exact ⟨i, i + k, hs, he, (Except.ok.inj h).symm⟩

/-- The markers hold no byte of WS, so stripping keeps them (40_extract.md R102). -/
theorem filter_bracketed (x : List Byte) : ([0x3C#8, 0x7E#8] ++ x ++ [0x7E#8, 0x3E#8]).filter (fun b => !isWhitespace b) =
    [0x3C#8, 0x7E#8] ++ x.filter (fun b => !isWhitespace b) ++ [0x7E#8, 0x3E#8] := by
  rw [List.filter_append, List.filter_append]
  rfl

/-- The two shapes of a payload (40_extract.md R102, R104). -/
theorem extract_shape {c p : List Byte} (h : extract c = .ok p) :
    p = [0x3C#8, 0x7E#8, 0x3E#8] ∨ ∃ x, p = [0x3C#8, 0x7E#8] ++ x ++ [0x7E#8, 0x3E#8] := by
  obtain ⟨i, j, hs, he, rfl⟩ := markers_of_extract h
  rcases hs.span_eq he with hspan | ⟨x, hspan⟩
  · exact .inl (by rw [hspan]; rfl)
  · exact .inr ⟨_, by rw [hspan, filter_bracketed]⟩

theorem length_le_of_extract {c p : List Byte} (h : extract c = .ok p) : p.length ≤ c.length := by
  obtain ⟨i, j, _, _, rfl⟩ := markers_of_extract h
  calc _ ≤ ((c.drop i).take (j + 2 - i)).length := List.length_filter_le _ _
    _ ≤ (c.drop i).length := List.length_take_le' _ _
    _ ≤ c.length := by rw [List.length_drop]; exact Nat.sub_le _ _

theorem not_mem_whitespace_of_extract {c p : List Byte} (h : extract c = .ok p) {b : Byte} (hb : b ∈ p) :
    b ∉ [0x09#8, 0x0A#8, 0x0B#8, 0x0C#8, 0x0D#8, 0x20#8] := by
  obtain ⟨i, j, _, _, rfl⟩ := markers_of_extract h
  have hkept := (List.mem_filter.1 hb).2
  rwa [not_isWhitespace, decide_eq_true_iff] at hkept

/-- The extractor on a bracketed payload, under the two conditions of 40_extract.md R105. -/
theorem extract_bracketed {pre x : List Byte} (post : List Byte) (hpre : NoPair 0x3C#8 0x7E#8 pre 0)
    (hx : NoPair 0x7E#8 0x3E#8 (0x7E#8 :: x) 0) :
    extract (pre ++ [0x3C#8, 0x7E#8] ++ x ++ [0x7E#8, 0x3E#8] ++ post) =
      .ok ([0x3C#8, 0x7E#8] ++ x.filter (fun b => !isWhitespace b) ++ [0x7E#8, 0x3E#8]) := by
  have hc : pre ++ [0x3C#8, 0x7E#8] ++ x ++ [0x7E#8, 0x3E#8] ++ post =
      pre ++ 0x3C#8 :: 0x7E#8 :: (x ++ 0x7E#8 :: 0x3E#8 :: post) := by simp
  rw [hc]
  have hs := hpre.firstPair_append (by decide) (x ++ 0x7E#8 :: 0x3E#8 :: post)
  have he := (hx.cons (x := 0x3C#8) (by decide)).firstPair_append (by decide) post
  have hdrop : (pre ++ 0x3C#8 :: 0x7E#8 :: (x ++ 0x7E#8 :: 0x3E#8 :: post)).drop pre.length =
      (0x3C#8 :: 0x7E#8 :: x) ++ 0x7E#8 :: 0x3E#8 :: post := List.drop_left
  have hspan : ((0x3C#8 :: 0x7E#8 :: x) ++ 0x7E#8 :: 0x3E#8 :: post).take ((0x3C#8 :: 0x7E#8 :: x).length + 2) =
      [0x3C#8, 0x7E#8] ++ x ++ [0x7E#8, 0x3E#8] := List.take_length_add_append 2
  rw [← hdrop, firstPair_drop] at he
  rw [extract_of_markers hs he, hdrop, Nat.add_assoc, Nat.add_sub_cancel_left, hspan, filter_bracketed]

end Sys2Proof.Machine

/-! ### The obligations on EXTRACT -/

namespace Sys2Proof.Proofs

open Sys2Proof.Machine

/-- Settles O31: each outcome of the extractor with the completion it gives. -/
theorem extractCompletes : Obligations.ExtractCompletes := by
  unfold Obligations.ExtractCompletes
  intro s c hw hc
  refine ⟨fun hs => ?_, fun i hs he => ?_, fun i j hs he => ?_⟩
  · exact exec_fails (i := .extract) hc (extract_of_noStart hs)
  · exact exec_fails (i := .extract) hc (extract_of_noEnd hs he)
  · have hp := extract_of_markers hs he
    simp only [not_isWhitespace] at hp
    exact ⟨exec_succeeds hw hc hp, exec_outRange hc hp⟩

/-- Settles O32: the two conditions make the brackets the first markers. -/
theorem extractReturnsThePayload : Obligations.ExtractReturnsThePayload := by
  unfold Obligations.ExtractReturnsThePayload
  exact fun _ _ post hpre hx => extract_bracketed post hpre hx

/-- Settles O33: by the two shapes of a payload. -/
theorem extractedPayloadShape : Obligations.ExtractedPayloadShape := by
  unfold Obligations.ExtractedPayloadShape
  intro c p h
  have hws := fun b (hb : b ∈ p) => not_mem_whitespace_of_extract h hb
  refine ⟨length_le_of_extract h, ?_⟩
  rcases extract_shape h with rfl | ⟨x, rfl⟩
  · exact ⟨rfl, rfl, .inl rfl, hws⟩
  · refine ⟨rfl, ?_, .inr ?_, hws⟩
    · rw [List.length_append]
      exact List.drop_left
    · simp only [List.length_append, List.length_cons, List.length_nil]
      omega

end Sys2Proof.Proofs

/-! # Base85 decoding (41_base85.md)

The decoder's loop said once, character by character, the scan of the model as that loop, and the statements on B85DEC. -/

namespace Sys2Proof.Machine

/-! ### One character of the loop (R121 to R125, R129) -/

/-- The character is a digit, as the loop tests it (R123). -/
def IsDigitChar (c : Byte) : Prop := 33 ≤ c.toNat ∧ c.toNat ≤ 117

theorem IsDigitChar.isDigit {c : Byte} (h : IsDigitChar c) : isDigit c = true := (isDigit_iff c).2 h

theorem IsDigitChar.ne_z {c : Byte} (h : IsDigitChar c) : c.toNat ≠ 122 := by
  obtain ⟨_, hhi⟩ := h
  omega

theorem decodeLoopStep_digit (out : List Byte) {g : List Nat} {c : Byte} (hc : IsDigitChar c) (hg : g.length < 4) :
    decodeLoopStep (out, g) c = .ok (out, g ++ [c.toNat - 33]) := by
  have hlen : (g ++ [c.toNat - 33]).length ≠ 5 := by simp; omega
  simp only [decodeLoopStep, if_pos (show 33 ≤ c.toNat ∧ c.toNat ≤ 117 from hc), if_neg hlen]

theorem decodeLoopStep_group (out : List Byte) {g : List Nat} {c : Byte} (hc : IsDigitChar c) (hg : g.length = 4)
    (hv : groupValueRef (g ++ [c.toNat - 33]) ≤ 0xFFFFFFFF) :
    decodeLoopStep (out, g) c = .ok (out ++ be (groupValueRef (g ++ [c.toNat - 33])) 4, []) := by
  have hlen : (g ++ [c.toNat - 33]).length = 5 := by simp [hg]
  simp only [decodeLoopStep, if_pos (show 33 ≤ c.toNat ∧ c.toNat ≤ 117 from hc), if_pos hlen, if_neg (Nat.not_lt.2 hv), be_eq_beRef]

theorem decodeLoopStep_overflow (out : List Byte) {g : List Nat} {c : Byte} (hc : IsDigitChar c) (hg : g.length = 4)
    (hv : 0xFFFFFFFF < groupValueRef (g ++ [c.toNat - 33])) : decodeLoopStep (out, g) c = .error .overflow := by
  have hlen : (g ++ [c.toNat - 33]).length = 5 := by simp [hg]
  simp only [decodeLoopStep, if_pos (show 33 ≤ c.toNat ∧ c.toNat ≤ 117 from hc), if_pos hlen, if_pos hv]

theorem decodeLoopStep_z (out : List Byte) {c : Byte} (hc : c.toNat = 122) :
    decodeLoopStep (out, []) c = .ok (out ++ [0x00#8, 0x00#8, 0x00#8, 0x00#8], []) := by
  simp [decodeLoopStep, hc]

theorem decodeLoopStep_zInGroup (out : List Byte) {g : List Nat} {c : Byte} (hc : c.toNat = 122) (hg : g ≠ []) :
    decodeLoopStep (out, g) c = .error .zInGroup := by
  simp [decodeLoopStep, hc, hg]

theorem decodeLoopStep_badChar (st : List Byte × List Nat) {c : Byte} (hc : ¬ IsDigitChar c) (hz : c.toNat ≠ 122) :
    decodeLoopStep st c = .error .badChar := by
  simp only [decodeLoopStep, if_neg (show ¬ (33 ≤ c.toNat ∧ c.toNat ≤ 117) from hc), if_neg hz]

/-- What the loop does with one character, at most 4 digits pending. -/
inductive LoopStep (out : List Byte) (g : List Nat) (c : Byte) : Except Err (List Byte × List Nat) → Prop where
  | digit (hc : IsDigitChar c) (hg : g.length < 4) : LoopStep out g c (.ok (out, g ++ [c.toNat - 33]))
  | group (hc : IsDigitChar c) (hg : g.length = 4) (hv : groupValueRef (g ++ [c.toNat - 33]) ≤ 0xFFFFFFFF) :
      LoopStep out g c (.ok (out ++ be (groupValueRef (g ++ [c.toNat - 33])) 4, []))
  | overflow (hc : IsDigitChar c) (hg : g.length = 4) (hv : 0xFFFFFFFF < groupValueRef (g ++ [c.toNat - 33])) :
      LoopStep out g c (.error .overflow)
  | z (hc : c.toNat = 122) (hg : g = []) : LoopStep out g c (.ok (out ++ [0x00#8, 0x00#8, 0x00#8, 0x00#8], []))
  | zInGroup (hc : c.toNat = 122) (hg : g ≠ []) : LoopStep out g c (.error .zInGroup)
  | badChar (hc : ¬ IsDigitChar c) (hz : c.toNat ≠ 122) : LoopStep out g c (.error .badChar)

theorem loopStep (out : List Byte) {g : List Nat} (c : Byte) (hg : g.length ≤ 4) : LoopStep out g c (decodeLoopStep (out, g) c) := by
  by_cases hc : IsDigitChar c
  · rcases Nat.lt_or_eq_of_le hg with hg | hg
    · exact decodeLoopStep_digit out hc hg ▸ .digit hc hg
    · rcases Nat.lt_or_ge 0xFFFFFFFF (groupValueRef (g ++ [c.toNat - 33])) with hv | hv
      · exact decodeLoopStep_overflow out hc hg hv ▸ .overflow hc hg hv
      · exact decodeLoopStep_group out hc hg hv ▸ .group hc hg hv
  · by_cases hz : c.toNat = 122
    · by_cases hg : g = []
      · exact hg ▸ decodeLoopStep_z out hz ▸ .z hz rfl
      · exact decodeLoopStep_zInGroup out hz hg ▸ .zInGroup hz hg
    · exact decodeLoopStep_badChar (out, g) hc hz ▸ .badChar hc hz

/-! ### The end of the body (R126, R127) -/

/-- The digits of a final group completed with the pad. -/
def paddedGroup (g : List Nat) : List Nat := g ++ List.replicate (5 - g.length) 84

theorem length_paddedGroup {g : List Nat} (hg : g.length ≤ 4) : (paddedGroup g).length = 5 := by
  simp [paddedGroup]; omega

theorem decodeFinish_empty (out : List Byte) : decodeFinish (out, []) = .ok out := rfl

theorem decodeFinish_single (out : List Byte) {g : List Nat} (hg : g.length = 1) : decodeFinish (out, g) = .error .finalLen1 :=
  if_pos hg

theorem decodeFinish_overflow (out : List Byte) {g : List Nat} (hg : 2 ≤ g.length) (hv : 0xFFFFFFFF < groupValueRef (paddedGroup g)) :
    decodeFinish (out, g) = .error .overflow := by
  rw [decodeFinish, if_neg (show g.length ≠ 1 by omega), if_pos hg]
  exact if_pos hv

theorem decodeFinish_group (out : List Byte) {g : List Nat} (hg : 2 ≤ g.length) (hv : groupValueRef (paddedGroup g) ≤ 0xFFFFFFFF) :
    decodeFinish (out, g) = .ok (out ++ (be (groupValueRef (paddedGroup g)) 4).take (g.length - 1)) := by
  rw [decodeFinish, if_neg (show g.length ≠ 1 by omega), if_pos hg, be_eq_beRef]
  exact if_neg (Nat.not_lt.2 hv)

/-- What the end of the body gives. -/
inductive FinishResult (out : List Byte) (g : List Nat) : Except Err (List Byte) → Prop where
  | empty (hg : g = []) : FinishResult out g (.ok out)
  | single (hg : g.length = 1) : FinishResult out g (.error .finalLen1)
  | overflow (hg : 2 ≤ g.length) (hv : 0xFFFFFFFF < groupValueRef (paddedGroup g)) : FinishResult out g (.error .overflow)
  | group (hg : 2 ≤ g.length) (hv : groupValueRef (paddedGroup g) ≤ 0xFFFFFFFF) :
      FinishResult out g (.ok (out ++ (be (groupValueRef (paddedGroup g)) 4).take (g.length - 1)))

theorem finishResult (out : List Byte) (g : List Nat) : FinishResult out g (decodeFinish (out, g)) := by
  match hg : g.length with
  | 0 =>
    obtain rfl := List.length_eq_zero_iff.1 hg
    exact .empty rfl
  | 1 => exact decodeFinish_single out hg ▸ .single hg
  | n + 2 =>
    have hg : 2 ≤ g.length := by omega
    rcases Nat.lt_or_ge 0xFFFFFFFF (groupValueRef (paddedGroup g)) with hv | hv
    · exact decodeFinish_overflow out hg hv ▸ .overflow hg hv
    · exact decodeFinish_group out hg hv ▸ .group hg hv

/-! ### The scan of the model is the loop -/

theorem decodeLoop_cons (st : List Byte × List Nat) (c : Byte) (cs : List Byte) :
    decodeLoop st (c :: cs) = (decodeLoopStep st c).bind (decodeLoop · cs) := rfl

theorem decodeLoop_append (st : List Byte × List Nat) (pre post : List Byte) :
    decodeLoop st (pre ++ post) = (decodeLoop st pre).bind (decodeLoop · post) :=
  List.foldlM_append

theorem groupBytes_of_le {g : List Nat} (hg : g.length = 5) (hv : groupValueRef g ≤ 0xFFFFFFFF) :
    groupBytes g = .ok (be (groupValueRef g) 4) := by
  rw [groupBytes, groupValue_eq_ref g hg, if_neg (Nat.not_lt.2 hv)]

theorem groupBytes_of_lt {g : List Nat} (hg : g.length = 5) (hv : 0xFFFFFFFF < groupValueRef g) :
    groupBytes g = .error .overflow := by
  rw [groupBytes, groupValue_eq_ref g hg, if_pos hv]

theorem finalGroup_eq_decodeFinish (out : List Byte) {g : List Nat} (hg : g.length ≤ 4) :
    (finalGroup g).map (out ++ ·) = decodeFinish (out, g) := by
  have hlen := length_paddedGroup hg
  have h := finishResult out g
  generalize decodeFinish (out, g) = r at h ⊢
  cases h with
  | empty hg => subst hg; simp [finalGroup, Except.map]
  | single hg => simp [finalGroup, hg, Except.map]
  | overflow hg hv =>
    rw [finalGroup, if_neg (by omega), if_neg (by omega)]
    exact congrArg (Except.map _ <| Except.map _ ·) (groupBytes_of_lt hlen hv)
  | group hg hv =>
    rw [finalGroup, if_neg (by omega), if_neg (by omega)]
    exact congrArg (Except.map _ <| Except.map _ ·) (groupBytes_of_le hlen hv)

/-- The scan gives the bytes that the loop and the end of the body append to `out`. -/
theorem scanBody_eq_decodeLoop (body : List Byte) (out : List Byte) {g : List Nat} (hg : g.length ≤ 4) :
    (scanBody g body).map (out ++ ·) = (decodeLoop (out, g) body).bind decodeFinish := by
  induction body generalizing out g with
  | nil => exact finalGroup_eq_decodeFinish out hg
  | cons c cs ih =>
    have ihMap : ∀ bs, ((scanBody [] cs).map (bs ++ ·)).map (out ++ ·) = (decodeLoop (out ++ bs, []) cs).bind decodeFinish := by
      intro bs
      rw [← ih (out ++ bs) (g := []) (Nat.zero_le 4)]
      cases scanBody [] cs <;> simp [Except.map]
    have h := loopStep out c hg
    rw [decodeLoop_cons, scanBody]
    generalize decodeLoopStep (out, g) c = r at h ⊢
    cases h with
    | digit hc hg =>
      rw [if_pos hc.isDigit, if_neg (by omega)]
      exact ih out (by simp; omega)
    | group hc hg hv =>
      rw [if_pos hc.isDigit, if_pos hg, groupBytes_of_le (by simp [hg]) hv]
      exact ihMap _
    | overflow hc hg hv =>
      rw [if_pos hc.isDigit, if_pos hg, groupBytes_of_lt (by simp [hg]) hv]
      rfl
    | z hc hg =>
      subst hg
      obtain rfl : c = 0x7A#8 := BitVec.eq_of_toNat_eq hc
      exact ihMap _
    | zInGroup hc hg =>
      obtain rfl : c = 0x7A#8 := BitVec.eq_of_toNat_eq hc
      rw [if_neg (by decide), if_pos rfl, if_neg (by simpa using hg)]
      rfl
    | badChar hc hz =>
      rw [if_neg (mt (isDigit_iff c).1 hc), if_neg (fun h => hz (by rw [h]; rfl))]
      rfl

/-! ### The brackets -/

theorem bracketed_iff (p : List Byte) : bracketed p = true ↔
    ¬ (p.length < 4 ∨ p.take 2 ≠ [0x3C#8, 0x7E#8] ∨ p.drop (p.length - 2) ≠ [0x7E#8, 0x3E#8]) := by
  simp [bracketed, and_assoc]

/-- The decoder is its transcription (R121). -/
theorem b85Decode_eq_ref (p : List Byte) : b85Decode p = b85DecodeRef p := by
  have hscan : ∀ body, scanBody [] body = (decodeLoop ([], []) body).bind decodeFinish := by
    intro body
    rw [← scanBody_eq_decodeLoop body [] (g := []) (Nat.zero_le 4)]
    cases scanBody [] body <;> rfl
  rw [b85Decode, b85DecodeRef, hscan, Nat.sub_sub]
  by_cases h : bracketed p = true
  · rw [if_pos h, if_neg ((bracketed_iff p).1 h)]
  · rw [if_neg h, if_pos (not_not.1 (mt (bracketed_iff p).2 h))]

/-- The decoder on a bracketed body. -/
theorem b85Decode_brackets (body : List Byte) : b85Decode ([0x3C#8, 0x7E#8] ++ body ++ [0x7E#8, 0x3E#8]) =
    (decodeLoop ([], []) body).bind decodeFinish := by
  have hlen : ([0x3C#8, 0x7E#8] ++ body ++ [0x7E#8, 0x3E#8]).length = body.length + 4 := by simp
  rw [b85Decode_eq_ref, b85DecodeRef, hlen, if_neg]
  · simp
  · simp

/-! ### What the loop and the end of the body can give (R128, R129) -/

/-- The digit characters of a body. -/
def digitCount (body : List Byte) : Nat := body.countP fun c => decide (33 ≤ c.toNat ∧ c.toNat ≤ 117)

/-- The characters `z` of a body. -/
def zCount (body : List Byte) : Nat := body.countP fun c => decide (c.toNat = 122)

theorem digitCount_cons_digit {c : Byte} (cs : List Byte) (hc : IsDigitChar c) : digitCount (c :: cs) = digitCount cs + 1 :=
  List.countP_cons_of_pos (decide_eq_true hc)

theorem zCount_cons_digit {c : Byte} (cs : List Byte) (hc : IsDigitChar c) : zCount (c :: cs) = zCount cs :=
  List.countP_cons_of_neg (by simpa using hc.ne_z)

theorem digitCount_cons_z {c : Byte} (cs : List Byte) (hc : c.toNat = 122) : digitCount (c :: cs) = digitCount cs :=
  List.countP_cons_of_neg (by simp [hc])

theorem zCount_cons_z {c : Byte} (cs : List Byte) (hc : c.toNat = 122) : zCount (c :: cs) = zCount cs + 1 :=
  List.countP_cons_of_pos (decide_eq_true hc)

/-- What the loop gives on a body, at most 4 digits pending: one of three errors, or a count of what it passed. -/
inductive LoopResult (out : List Byte) (g : List Nat) (body : List Byte) : Except Err (List Byte × List Nat) → Prop where
  | stops {e : Err} (he : e ∈ [.badChar, .zInGroup, .overflow]) : LoopResult out g body (.error e)
  | passes {out' : List Byte} {g' : List Nat} (hg : g'.length = (g.length + digitCount body) % 5)
      (hout : out'.length = out.length + 4 * ((g.length + digitCount body) / 5) + 4 * zCount body)
      (hbody : digitCount body + zCount body = body.length) : LoopResult out g body (.ok (out', g'))

/-- The characters of a body are counted one by one. -/
theorem LoopResult.cons {out out' : List Byte} {g g' : List Nat} {c : Byte} {cs : List Byte} {r : Except Err (List Byte × List Nat)}
    (h : LoopResult out' g' cs r) (hg : (g'.length + digitCount cs) % 5 = (g.length + digitCount (c :: cs)) % 5)
    (hout : out'.length + 4 * ((g'.length + digitCount cs) / 5) + 4 * zCount cs =
      out.length + 4 * ((g.length + digitCount (c :: cs)) / 5) + 4 * zCount (c :: cs))
    (hbody : digitCount (c :: cs) + zCount (c :: cs) = digitCount cs + zCount cs + 1) : LoopResult out g (c :: cs) r := by
  cases h with
  | stops he => exact .stops he
  | passes hg' hout' hbody' => exact .passes (hg'.trans hg) (hout'.trans hout) (by rw [hbody, hbody', List.length_cons])

theorem loopResult (body : List Byte) (out : List Byte) {g : List Nat} (hg : g.length ≤ 4) :
    LoopResult out g body (decodeLoop (out, g) body) := by
  induction body generalizing out g with
  | nil => exact .passes (Nat.mod_eq_of_lt (Nat.lt_succ_of_le hg)).symm (by simp [digitCount, zCount]; omega) rfl
  | cons c cs ih =>
    have h := loopStep out c hg
    rw [decodeLoop_cons]
    generalize decodeLoopStep (out, g) c = r at h ⊢
    cases h with
    | digit hc hg =>
      have hd := digitCount_cons_digit cs hc
      have hz := zCount_cons_digit cs hc
      have hlen : (g ++ [c.toNat - 33]).length = g.length + 1 := by simp
      exact (ih out (by omega)).cons (by rw [hlen, hd]; omega) (by rw [hlen, hd, hz]; omega) (by omega)
    | group hc hg hv =>
      have hd := digitCount_cons_digit cs hc
      have hz := zCount_cons_digit cs hc
      refine (ih _ (g := []) (Nat.zero_le 4)).cons ?_ ?_ (by omega)
      · rw [hd, hg, List.length_nil]; omega
      · rw [hd, hz, hg, List.length_append, be_length, List.length_nil]; omega
    | z hc hg =>
      subst hg
      have hd := digitCount_cons_z cs hc
      have hz := zCount_cons_z cs hc
      exact (ih _ (g := []) (Nat.zero_le 4)).cons (by rw [hd]) (by rw [hd, hz, List.length_append]; simp; omega) (by omega)
    | overflow hc hg hv => exact .stops (by decide)
    | zInGroup hc hg => exact .stops (by decide)
    | badChar hc hz => exact .stops (by decide)

/-- Between two characters at most 4 digits are pending. -/
theorem pending_le_of_decodeLoop {body out : List Byte} {g : List Nat} (h : decodeLoop ([], []) body = .ok (out, g)) : g.length ≤ 4 := by
  have hr := loopResult body [] (g := []) (Nat.zero_le 4)
  rw [h] at hr
  cases hr with
  | passes hg _ _ => omega

/-- A final group of `L` digits gives `L - 1` bytes (R126). -/
theorem length_of_decodeFinish {out bs : List Byte} {g : List Nat} (hg : g.length ≤ 4) (h : decodeFinish (out, g) = .ok bs) :
    bs.length = out.length + (g.length - 1) := by
  have hf := finishResult out g
  rw [h] at hf
  cases hf with
  | empty hg => rw [hg]; rfl
  | group _ _ => rw [List.length_append, List.length_take, be_length]; omega

/-- The errors of the decoder (60_exceptions.md R231). -/
def decodeErrors : List Err := [.bracket, .badChar, .zInGroup, .finalLen1, .overflow]

theorem mem_decodeErrors_of_b85Decode {p : List Byte} {e : Err} (h : b85Decode p = .error e) : e ∈ decodeErrors := by
  rw [b85Decode_eq_ref, b85DecodeRef] at h
  split at h
  · cases h; decide
  · generalize (p.drop 2).take (p.length - 2 - 2) = body at h
    have hr := loopResult body [] (g := []) (Nat.zero_le 4)
    generalize decodeLoop ([], []) body = r at h hr
    cases hr with
    | stops he =>
      cases h
      exact (by decide : ∀ e ∈ [Err.badChar, .zInGroup, .overflow], e ∈ decodeErrors) e he
    | @passes out g _ _ _ =>
      have hf := finishResult out g
      rw [show decodeFinish (out, g) = .error e from h] at hf
      cases hf <;> decide

/-! ### The decoder after a part of the body that the loop passes (R129) -/

theorem b85Decode_bracket {p : List Byte}
    (h : p.length < 4 ∨ p.take 2 ≠ [0x3C#8, 0x7E#8] ∨ p.drop (p.length - 2) ≠ [0x7E#8, 0x3E#8]) :
    b85Decode p = .error .bracket := by
  rw [b85Decode_eq_ref, b85DecodeRef, if_pos h]

theorem b85Decode_of_next {pre out : List Byte} {g : List Nat} {c : Byte} {e : Err} (post : List Byte)
    (h : decodeLoop ([], []) pre = .ok (out, g)) (hc : decodeLoopStep (out, g) c = .error e) :
    b85Decode ([0x3C#8, 0x7E#8] ++ pre ++ c :: post ++ [0x7E#8, 0x3E#8]) = .error e := by
  rw [List.append_assoc [0x3C#8, 0x7E#8], b85Decode_brackets, decodeLoop_append, h]
  show ((decodeLoopStep (out, g) c).bind _).bind _ = _
  rw [hc]
  rfl

theorem b85Decode_of_end {pre out : List Byte} {g : List Nat} (h : decodeLoop ([], []) pre = .ok (out, g)) :
    b85Decode ([0x3C#8, 0x7E#8] ++ pre ++ [0x7E#8, 0x3E#8]) = decodeFinish (out, g) := by
  rw [b85Decode_brackets, h]
  rfl

/-! ### Big-endian bytes (00_scope.md R12) -/

theorem be_append_byte (w : Nat) (b : Byte) (n : Nat) : be (w * 256 + b.toNat) (n + 1) = be w n ++ [b] := by
  have hb := b.isLt
  induction n with
  | zero => simp [be, BitVec.ofNat_add, BitVec.ofNat_mul]
  | succ n ih =>
    have hhead : (w * 256 + b.toNat) >>> (8 * (n + 1)) = w >>> (8 * n) := by
      rw [show 8 * (n + 1) = 8 + 8 * n by omega, Nat.shiftRight_add, Nat.shiftRight_eq_div_pow _ 8]
      congr 1
      omega
    rw [be, ih, hhead]
    rfl

theorem be_bytesValue (a b c d : Byte) : be (bytesValue a b c d) 4 = [a, b, c, d] := by
  have ha : be a.toNat 1 = [a] := by simp [be]
  rw [bytesValue, be_append_byte, be_append_byte, be_append_byte, ha]
  rfl

/-- The first `k` bytes are those of the number without its last `n - k` bytes. -/
theorem take_be (v : Nat) {k n : Nat} (h : k ≤ n) : (be v n).take k = be (v / 256 ^ (n - k)) k := by
  apply List.ext_getElem?
  intro i
  rcases Nat.lt_or_ge i k with hi | hi
  · have hshift : v / 256 ^ (n - k) = v >>> (8 * (n - k)) := by rw [Nat.shiftRight_eq_div_pow, Nat.pow_mul]
    rw [List.getElem?_take_of_lt hi, be_getElem? _ _ _ (hi.trans_le h), be_getElem? _ _ _ hi, hshift, ← Nat.shiftRight_add]
    congr 3
    omega
  · rw [List.getElem?_eq_none (by simp; omega), List.getElem?_eq_none (by simpa using hi)]

/-! ### The encoder's digits (R122, R131) -/

/-- The five digits of a 32-bit value. -/
def digits85 (v : Nat) : List Nat := [v / 85 ^ 4, v / 85 ^ 3 % 85, v / 85 ^ 2 % 85, v / 85 % 85, v % 85]

/-- The character of a digit (R123). -/
def digitChar (d : Nat) : Byte := BitVec.ofNat 8 (d + 33)

theorem digitChars_eq_map (v : Nat) : digitChars v = (digits85 v).map digitChar := rfl

theorem lt_of_mem_digits85 {v d : Nat} (hv : v < 2 ^ 32) (hd : d ∈ digits85 v) : d < 85 := by
  simp only [digits85, List.mem_cons, List.not_mem_nil, or_false] at hd
  omega

theorem groupValueRef_digits85 (v : Nat) : groupValueRef (digits85 v) = v := by
  simp only [groupValueRef, digits85, List.getD_cons_zero, List.getD_cons_succ]
  omega

theorem digitChar_toNat {d : Nat} (hd : d < 85) : (digitChar d).toNat = d + 33 := by
  rw [digitChar, BitVec.toNat_ofNat]
  omega

theorem isDigitChar_digitChar {d : Nat} (hd : d < 85) : IsDigitChar (digitChar d) := by
  rw [IsDigitChar, digitChar_toNat hd]
  omega

/-- Digits that do not fill a group stay pending. -/
theorem decodeLoop_digits (out : List Byte) {g ds : List Nat} (hd : ∀ d ∈ ds, d < 85) (hg : g.length + ds.length ≤ 4) :
    decodeLoop (out, g) (ds.map digitChar) = .ok (out, g ++ ds) := by
  induction ds generalizing g with
  | nil => rw [List.append_nil]; rfl
  | cons d ds ih =>
    have hlt : d < 85 := hd d List.mem_cons_self
    rw [List.length_cons] at hg
    rw [List.map_cons, decodeLoop_cons, decodeLoopStep_digit out (isDigitChar_digitChar hlt) (by omega), digitChar_toNat hlt,
      Nat.add_sub_cancel]
    show decodeLoop (out, g ++ [d]) _ = _
    rw [ih (fun d h => hd d (List.mem_cons_of_mem _ h)) (by simp; omega), List.append_assoc]
    rfl

/-- The five digits of a 32-bit value give its four bytes. -/
theorem decodeLoop_digitChars (out : List Byte) {v : Nat} (hv : v < 2 ^ 32) :
    decodeLoop (out, []) (digitChars v) = .ok (out ++ be v 4, []) := by
  have hsplit : digits85 v = (digits85 v).take 4 ++ [v % 85] := rfl
  have hlast : v % 85 < 85 := Nat.mod_lt v (by decide)
  have hvalue : groupValueRef ((digits85 v).take 4 ++ [v % 85]) = v := groupValueRef_digits85 v
  have hinit := decodeLoop_digits out (g := []) (fun d hd => lt_of_mem_digits85 hv (List.mem_of_mem_take hd)) (ds := (digits85 v).take 4)
    (Nat.le_refl 4)
  have hstep := decodeLoopStep_group out (g := (digits85 v).take 4) (isDigitChar_digitChar hlast) rfl
  rw [digitChar_toNat hlast, Nat.add_sub_cancel, hvalue] at hstep
  rw [digitChars_eq_map, hsplit, List.map_append, decodeLoop_append, hinit]
  show (decodeLoopStep (out, (digits85 v).take 4) (digitChar (v % 85))).bind _ = _
  rw [hstep (by omega)]
  rfl

/-- The pad raises every digit left out to 84, the largest (R126). -/
theorem groupValueRef_paddedGroup_digits85 (v : Nat) {k : Nat} (h1 : 1 ≤ k) (h3 : k ≤ 3) :
    groupValueRef (paddedGroup ((digits85 v).take (k + 1))) = v / 85 ^ (4 - k) * 85 ^ (4 - k) + (85 ^ (4 - k) - 1) := by
  obtain rfl | rfl | rfl : k = 1 ∨ k = 2 ∨ k = 3 := by omega
  all_goals
    simp [paddedGroup, digits85, groupValueRef, List.replicate]
    omega

/-- The first `k + 1` digits of a final group give back its `k` bytes: the pad cannot carry into them (R126). -/
theorem decodeFinish_digits85 (out : List Byte) {v k : Nat} (hv : v < 2 ^ 32) (h1 : 1 ≤ k) (h3 : k ≤ 3) (hz : 256 ^ (4 - k) ∣ v) :
    decodeFinish (out, (digits85 v).take (k + 1)) = .ok (out ++ (be v 4).take k) := by
  have hlen : ((digits85 v).take (k + 1)).length = k + 1 := by simp [digits85]; omega
  have hvalue := groupValueRef_paddedGroup_digits85 v h1 h3
  have hpad : groupValueRef (paddedGroup ((digits85 v).take (k + 1))) ≤ 0xFFFFFFFF ∧
      groupValueRef (paddedGroup ((digits85 v).take (k + 1))) / 256 ^ (4 - k) = v / 256 ^ (4 - k) := by
    rw [hvalue]
    obtain rfl | rfl | rfl : k = 1 ∨ k = 2 ∨ k = 3 := by omega
    all_goals
      norm_num at hz ⊢
      omega
  rw [decodeFinish_group out (by omega) hpad.1, hlen, Nat.add_sub_cancel, take_be _ (by omega), hpad.2, ← take_be _ (by omega)]

/-! ### The decoder inverts the encoder (R131) -/

theorem bytesValue_lt (a b c d : Byte) : bytesValue a b c d < 2 ^ 32 := by
  have := a.isLt
  have := b.isLt
  have := c.isLt
  have := d.isLt
  unfold bytesValue
  omega

/-- A full group as the encoder writes it. -/
theorem decodeLoop_encodedGroup (out : List Byte) (a b c d : Byte) :
    decodeLoop (out, []) (if bytesValue a b c d = 0 then [0x7A#8] else digitChars (bytesValue a b c d)) =
      .ok (out ++ [a, b, c, d], []) := by
  rw [← be_bytesValue a b c d]
  split
  next h => rw [h]; exact decodeLoopStep_z (c := 0x7A#8) out rfl
  next => exact decodeLoop_digitChars out (bytesValue_lt a b c d)

/-- A final group of `k` bytes as the encoder writes it. -/
theorem decode_encodedTail (out : List Byte) {a b c d : Byte} {k : Nat} (h1 : 1 ≤ k) (h3 : k ≤ 3)
    (hz : 256 ^ (4 - k) ∣ bytesValue a b c d) :
    (decodeLoop (out, []) ((digitChars (bytesValue a b c d)).take (k + 1))).bind decodeFinish = .ok (out ++ [a, b, c, d].take k) := by
  have hv := bytesValue_lt a b c d
  have hloop := decodeLoop_digits out (g := []) (ds := (digits85 (bytesValue a b c d)).take (k + 1))
    (fun _ hd => lt_of_mem_digits85 hv (List.mem_of_mem_take hd)) (by simp [digits85]; omega)
  rw [digitChars_eq_map, ← List.map_take, hloop, ← be_bytesValue a b c d]
  exact decodeFinish_digits85 out hv h1 h3 hz

theorem decode_encodeBody (bs out : List Byte) : (decodeLoop (out, []) (encodeBody bs)).bind decodeFinish = .ok (out ++ bs) := by
  induction bs using encodeBody.induct generalizing out with
  | case1 => rw [List.append_nil]; rfl
  | case2 a => exact decode_encodedTail out (k := 1) (by decide) (by decide) (by simp [bytesValue]; omega)
  | case3 a b => exact decode_encodedTail out (k := 2) (by decide) (by decide) (by simp [bytesValue]; omega)
  | case4 a b c => exact decode_encodedTail out (k := 3) (by decide) (by decide) (by simp [bytesValue])
  | case5 a b c d bs ih =>
    rw [encodeBody, decodeLoop_append, decodeLoop_encodedGroup]
    exact (ih _).trans (by simp)

end Sys2Proof.Machine

/-! ### The obligations on B85DEC -/

namespace Sys2Proof.Proofs

open Sys2Proof.Machine

/-- Settles O34: the model's decoder is the transcription, and its errors are the five of the table. -/
theorem b85decCompletes : Obligations.B85decCompletes := by
  unfold Obligations.B85decCompletes
  intro s x hw hx
  have hstatus : ∀ e ∈ decodeErrors, (e, statusErr e) ∈ [(Err.bracket, 0x00000122#32), (.badChar, 0x00000222#32),
      (.zInGroup, 0x00000322#32), (.finalLen1, 0x00000422#32), (.overflow, 0x00000522#32)] := by decide
  rw [← b85Decode_eq_ref]
  cases h : b85Decode x with
  | ok bs => exact ⟨exec_succeeds (i := .b85dec) hw hx h, exec_outRange (i := .b85dec) hx h⟩
  | error e =>
    obtain ⟨t, ht, hf⟩ := exec_fails (i := .b85dec) hx h
    exact ⟨t, statusErr e, hstatus e (mem_decodeErrors_of_b85Decode h), ht, hf⟩

/-- Settles O35: after the brackets, the loop's next character or the end of the body decides. -/
theorem decodeErrorOrder : Obligations.DecodeErrorOrder := by
  unfold Obligations.DecodeErrorOrder
  refine ⟨fun p h => b85Decode_bracket h, fun pre post c out g h => ?_⟩
  have next : ∀ {e}, decodeLoopStep (out, g) c = .error e → _ := b85Decode_of_next post h
  have atEnd := b85Decode_of_end h
  refine ⟨pending_le_of_decodeLoop h, fun hc => ?_, fun hz hg => ?_, fun hlo hhi hg hv => ?_, fun hg => ?_, fun hg => ?_,
    fun hg hv => ?_, fun hg hv => ?_⟩
  · exact next (decodeLoopStep_badChar _ (by unfold IsDigitChar; omega) (by omega))
  · exact next (decodeLoopStep_zInGroup out hz (List.ne_nil_of_length_pos hg))
  · exact next (decodeLoopStep_overflow out ⟨hlo, hhi⟩ hg hv)
  · obtain rfl := List.length_eq_zero_iff.1 hg
    exact atEnd.trans (decodeFinish_empty out)
  · exact atEnd.trans (decodeFinish_single out hg)
  · exact atEnd.trans (decodeFinish_overflow out hg hv)
  · rw [← be_eq_beRef]
    exact atEnd.trans (decodeFinish_group out hg hv)

/-- Settles O36: group by group, and the two values of the failing opposite direction by evaluation. -/
theorem base85RoundTrip : Obligations.Base85RoundTrip := by
  unfold Obligations.Base85RoundTrip
  refine ⟨fun b => ?_, by decide, by decide⟩
  rw [encode85, b85Decode_brackets]
  exact decode_encodeBody b []

/-- Settles O37: what the loop counts and what the final group adds. -/
theorem decodedLength : Obligations.DecodedLength := by
  unfold Obligations.DecodedLength
  intro body out h
  rw [b85Decode_brackets] at h
  obtain ⟨⟨bs, g⟩, hloop, hfinish⟩ := except_bind_ok h
  have hlen := length_of_decodeFinish (pending_le_of_decodeLoop hloop) hfinish
  have hz : zCount body = body.length ↔ ∀ c, c ∈ body → c.toNat = 122 := by simp [zCount, List.countP_eq_length]
  have hr := loopResult body [] (g := []) (Nat.zero_le 4)
  rw [hloop] at hr
  cases hr with
  | passes hg hout hbody =>
    simp only [List.length_nil, Nat.zero_add] at hg hout
    show out.length = 4 * (digitCount body / 5) + 4 * zCount body + (digitCount body % 5 - 1) ∧ _ ∧ _
    rw [← hz]
    omega

end Sys2Proof.Proofs

/-! # XorRotate (42_xor_rotate.md)

The model's rotation as the library's `BitVec.rotateRight`, `xr8` as a rotation and an XOR in either order, and the statements on
XORROT. -/

namespace Sys2Proof.Machine

/-! ### The rotation -/

/-- A byte is its bits 0 to 6, which a rotation right by one takes from the bit above, and its bit 7, which it takes from bit 0. -/
theorem byte_ext {x y : Byte} (hlow : ∀ i < 7, x.getLsbD i = y.getLsbD i) (htop : x.getLsbD 7 = y.getLsbD 7) : x = y := by
  apply BitVec.eq_of_getLsbD_eq
  intro i hi
  rcases Nat.lt_or_eq_of_le (Nat.le_of_lt_succ hi) with h | rfl
  · exact hlow i h
  · exact htop

/-- `rotr8` masks with 1 before it shifts by 7, which drops nothing that the shift keeps. -/
theorem rotr8_eq_rotateRight (x : Byte) : rotr8 x = x.rotateRight 1 := by
  have hmask : (x &&& 1#8) <<< 7 = x <<< 7 := by
    apply byte_ext
    · intro i hi
      simp [hi]
    · simp
  rw [rotr8, hmask, BitVec.rotateRight_def]

theorem getLsbD_rotr8_of_lt (x : Byte) {i : Nat} (hi : i < 7) : (rotr8 x).getLsbD i = x.getLsbD (i + 1) := by
  rw [rotr8_eq_rotateRight, BitVec.getLsbD_rotateRight_of_lt (by decide)]
  simp [hi, Nat.add_comm]

theorem getLsbD_rotr8_seven (x : Byte) : (rotr8 x).getLsbD 7 = x.getLsbD 0 := by
  rw [rotr8_eq_rotateRight, BitVec.getLsbD_rotateRight_of_lt (by decide)]
  simp

theorem rotr8_xor (x y : Byte) : rotr8 (x ^^^ y) = rotr8 x ^^^ rotr8 y := by
  apply byte_ext
  · intro i hi
    simp only [BitVec.getLsbD_xor, getLsbD_rotr8_of_lt _ hi]
  · simp only [BitVec.getLsbD_xor, getLsbD_rotr8_seven]

theorem rotateLeft_rotr8 (x : Byte) : (rotr8 x).rotateLeft 1 = x := by
  apply BitVec.eq_of_getLsbD_eq
  intro i hi
  rw [BitVec.getLsbD_rotateLeft_of_le (by decide)]
  cases i with
  | zero => simpa using getLsbD_rotr8_seven x
  | succ i => simpa [hi] using getLsbD_rotr8_of_lt x (Nat.lt_of_succ_lt_succ hi)

theorem rotr8_rotateLeft (r : Byte) : rotr8 (r.rotateLeft 1) = r := by
  apply byte_ext
  · intro i hi
    rw [getLsbD_rotr8_of_lt _ hi, BitVec.getLsbD_rotateLeft_of_le (by decide)]
    simp [Nat.succ_lt_succ hi]
  · rw [getLsbD_rotr8_seven, BitVec.getLsbD_rotateLeft_of_le (by decide)]
    simp

/-! ### `xr8` and its inverse -/

/-- The bits of the key 0x55 are the even ones. -/
theorem getLsbD_0x55 {i : Nat} (hi : i < 8) : (0x55#8).getLsbD i = decide (i % 2 = 0) :=
  (by decide : ∀ j < 8, (0x55#8).getLsbD j = decide (j % 2 = 0)) i hi

theorem getLsbD_xr8_of_le (b : Byte) {i : Nat} (hi : i ≤ 6) :
    (xr8 b).getLsbD i = (b.getLsbD (i + 1) ^^ decide ((i + 1) % 2 = 0)) := by
  rw [xr8, getLsbD_rotr8_of_lt _ (by omega), BitVec.getLsbD_xor, getLsbD_0x55 (by omega)]

theorem getLsbD_xr8_seven (b : Byte) : (xr8 b).getLsbD 7 = (b.getLsbD 0 ^^ true) := by
  rw [xr8, getLsbD_rotr8_seven, BitVec.getLsbD_xor, getLsbD_0x55 (by decide)]
  rfl

/-- 0xAA is the key 0x55 rotated. -/
theorem xr8_eq_rotr8_xor (b : Byte) : xr8 b = rotr8 b ^^^ 0xAA#8 := by
  have hkey : rotr8 0x55#8 = 0xAA#8 := by decide
  rw [xr8, rotr8_xor, hkey]

theorem xr8inv_eq_rotateLeft_xor (r : Byte) : xr8inv r = r.rotateLeft 1 ^^^ 0x55#8 := by
  rw [xr8inv, BitVec.rotateLeft_def]

theorem xor_key_xor_key (b : Byte) : b ^^^ 0x55#8 ^^^ 0x55#8 = b := by
  rw [BitVec.xor_assoc, BitVec.xor_self, BitVec.xor_zero]

theorem xr8inv_xr8 (b : Byte) : xr8inv (xr8 b) = b := by
  rw [xr8inv_eq_rotateLeft_xor, xr8, rotateLeft_rotr8, xor_key_xor_key]

theorem xr8_xr8inv (r : Byte) : xr8 (xr8inv r) = r := by
  rw [xr8, xr8inv_eq_rotateLeft_xor, xor_key_xor_key, rotr8_rotateLeft]

/-! ### XorRotate on a buffer -/

theorem length_xorRotate (s : List Byte) : (xorRotate s).length = s.length := List.length_map _

theorem getElem_xorRotate (s : List Byte) {k : Nat} (h : k < (xorRotate s).length) :
    (xorRotate s)[k] = xr8 (s[k]'(length_xorRotate s ▸ h)) := List.getElem_map _

end Sys2Proof.Machine

/-! ### The obligations on XORROT -/

namespace Sys2Proof.Proofs

open Sys2Proof.Machine

/-- Settles O21: XORROT's unit function is `xorRotate`, whose result is as long as the input. -/
theorem xorrotCompletes : Obligations.XorrotCompletes := by
  unfold Obligations.XorrotCompletes
  intro s x hw hx hl
  exact exec_succeeds (i := .xorrot) (bs := xorRotate x) hw hx rfl ((length_xorRotate x).trans_le hl)

/-- Settles O22: lane by lane from the map, and bit by bit from the bits of the rotation and of the key. -/
theorem xorRotateLanes : Obligations.XorRotateLanes := by
  unfold Obligations.XorRotateLanes
  refine ⟨fun s => ⟨length_xorRotate s, fun k _ h' => getElem_xorRotate s h'⟩, fun b => ⟨fun i hi => ?_, ?_, ?_⟩⟩
  · exact getLsbD_xr8_of_le b hi
  · exact getLsbD_xr8_seven b
  · exact xr8_eq_rotr8_xor b

/-- Settles O23: the two rotations cancel, and so do the two XORs with the key. -/
theorem xorRotateInverse : Obligations.XorRotateInverse := by
  unfold Obligations.XorRotateInverse
  exact fun b => ⟨xr8inv_xr8 b, xr8_xr8inv b⟩

end Sys2Proof.Proofs

/-! # ParityFilter (43_parity.md)

The parity check of a byte as a comparison of its bit 0 with the number of 1 bits above it, and the statements on PARITY. -/

namespace Sys2Proof.Machine

/-! ### The number of 1 bits of a byte -/

/-- The number of 1 bits of `b >> 1`, counted in place: among bits 7 to 1 of `b` (43_parity.md R171, `ones`). -/
def payloadOnes (b : Byte) : Nat := (List.range 7).countP fun i => b.getLsbD (i + 1)

/-- The bit that the shift brings in at the top is 0. -/
theorem popcount_shiftRight_one (b : Byte) : popcount (b >>> 1) = payloadOnes b := by
  simp only [popcount, payloadOnes, BitVec.getLsbD_ushiftRight, Nat.add_comm 1]
  rw [List.range_succ, List.countP_append, List.countP_singleton, BitVec.getLsbD_of_ge b (7 + 1) (by decide)]
  rfl

/-- A byte is its bit 0 and its payload. -/
theorem popcount_eq_add_payloadOnes (b : Byte) : popcount b = b.toNat % 2 + payloadOnes b := by
  have hlow : (if b.getLsbD 0 then 1 else 0) = b.toNat % 2 := by
    rcases Nat.mod_two_eq_zero_or_one b.toNat with h | h <;> simp [BitVec.getLsbD, h]
  rw [popcount, List.range_succ_eq_map, List.countP_cons, List.countP_map, hlow, Nat.add_comm]
  rfl

theorem payloadOnes_ofNat_succ (n : Nat) : payloadOnes (BitVec.ofNat 8 (2 * n + 1)) = payloadOnes (BitVec.ofNat 8 (2 * n)) := by
  simp [payloadOnes, BitVec.getLsbD_ofNat, Nat.testBit_succ, Nat.mul_add_div]

/-! ### The parity check -/

theorem and_one_eq_ofNat (b : Byte) : b &&& 1#8 = BitVec.ofNat 8 (b.toNat % 2) := by
  apply BitVec.eq_of_toNat_eq
  rw [BitVec.toNat_and, BitVec.toNat_ofNat, BitVec.toNat_ofNat, Nat.and_one_is_mod]
  omega

/-- The two cases of R171 say together that the parity bit is the parity of the payload. -/
theorem parityValid_iff (b : Byte) : parityValid b = true ↔ payloadOnes b % 2 = b.toNat % 2 := by
  rw [parityValid, popcount_shiftRight_one, and_one_eq_ofNat]
  rcases Nat.mod_two_eq_zero_or_one b.toNat with h | h <;> simp [h]

theorem parityValid_iff_even_popcount (b : Byte) : parityValid b = true ↔ popcount b % 2 = 0 := by
  rw [parityValid_iff, popcount_eq_add_payloadOnes]
  omega

/-- Of two byte values with the same payload exactly one is valid. -/
theorem parityValid_ofNat_succ (n : Nat) :
    parityValid (BitVec.ofNat 8 (2 * n + 1)) = !parityValid (BitVec.ofNat 8 (2 * n)) := by
  rw [Bool.eq_not, ne_eq, Bool.eq_iff_iff, parityValid_iff, parityValid_iff, payloadOnes_ofNat_succ, BitVec.toNat_ofNat,
    BitVec.toNat_ofNat]
  omega

theorem countP_parityValid_range (n : Nat) : (List.range (2 * n)).countP (fun k => parityValid (BitVec.ofNat 8 k)) = n := by
  induction n with
  | zero => rfl
  | succ n ih =>
    rw [Nat.mul_succ, List.range_succ, List.range_succ, List.countP_append, List.countP_append, ih, List.countP_singleton,
      List.countP_singleton, parityValid_ofNat_succ]
    cases parityValid (BitVec.ofNat 8 (2 * n)) <;> rfl

/-! ### ParityFilter on a buffer -/

/-- ParityFilter with the check written out on the bits of the byte. -/
theorem parityFilter_eq_filter (s : List Byte) : parityFilter s =
    s.filter fun b => decide ((List.range 7).countP (fun i => b.getLsbD (i + 1)) % 2 = b.toNat % 2) := by
  refine List.filter_congr fun b _ => ?_
  rw [Bool.eq_iff_iff, parityValid_iff, decide_eq_true_iff]
  rfl

end Sys2Proof.Machine

/-! ### The obligations on PARITY -/

namespace Sys2Proof.Proofs

open Sys2Proof.Machine

/-- Settles O24: PARITY's unit function is `parityFilter`, which keeps the bytes whose bit 0 is the parity of the bits above it. -/
theorem parityCompletes : Obligations.ParityCompletes := by
  unfold Obligations.ParityCompletes
  intro s x hw hx hl
  rw [← parityFilter_eq_filter] at hl ⊢
  exact exec_succeeds (i := .parity) hw hx rfl hl

/-- Settles O25: the parity bit makes the number of 1 bits even, and of the 128 pairs of values that differ in it alone each has one
valid value. -/
theorem validMeansEvenPopcount : Obligations.ValidMeansEvenPopcount := by
  unfold Obligations.ValidMeansEvenPopcount
  exact ⟨parityValid_iff_even_popcount, countP_parityValid_range 128⟩

/-- Settles O26: the laws of a filter. -/
theorem parityFilterLaws : Obligations.ParityFilterLaws := by
  unfold Obligations.ParityFilterLaws
  intro s t
  refine ⟨?_, ?_, ?_, fun b hb => ?_⟩
  · exact List.length_filter_le parityValid s
  · exact List.filter_eq_self.2 fun _ h => List.of_mem_filter h
  · exact List.filter_append s t
  · exact List.of_mem_filter hb

end Sys2Proof.Proofs

/-! # BitPack (44_bitpack.md)

The bits of a packed block, BitPack of one group and of a concatenation, a full group in byte form and unpacked, and the statements on
PACK. -/

namespace Sys2Proof.Machine

/-! ### The accumulator of a group -/

theorem testBit_packAcc {g : List Byte} (hg : g.length ≤ 8) (p : Nat) :
    (packAcc g).testBit p = (decide (p < 56) && (g.getD (7 - p / 7) 0#8).getLsbD (p % 7 + 1)) :=
  testBit_packAccFrom g 0 p (by omega)

theorem packAcc_lt {g : List Byte} (hg : g.length ≤ 8) : packAcc g < 2 ^ 56 := by
  apply Nat.lt_pow_two_of_testBit
  intro p hp
  rw [testBit_packAcc hg, decide_eq_false (by omega : ¬ p < 56), Bool.false_and]

/-- The low bits belong to the bytes that a short group does not have (44_bitpack.md R192). -/
theorem packAcc_mod_eq_zero {g : List Byte} (hg : g.length ≤ 8) : packAcc g % 2 ^ (7 * (8 - g.length)) = 0 := by
  apply Nat.eq_of_testBit_eq
  intro p
  rw [Nat.testBit_mod_two_pow, testBit_packAcc hg, Nat.zero_testBit, Bool.and_eq_false_imp, decide_eq_true_eq]
  intro hp
  have hmissing : g.getD (7 - p / 7) 0#8 = 0#8 := List.getD_eq_default _ _ (by omega)
  rw [hmissing, BitVec.getLsbD_zero, Bool.and_false]

/-! ### The upper 7 bits of the bytes -/

/-- The values `s[k] >> 1` that BitPack uses (44_bitpack.md R191). -/
def upperBits (s : List Byte) : List Nat := s.map fun b => b.toNat / 2

theorem length_eq_of_upperBits_eq {s s' : List Byte} (h : upperBits s = upperBits s') : s.length = s'.length := by
  simpa [upperBits] using congrArg List.length h

theorem upperBits_packGroup (s : List Byte) (q : Nat) : upperBits (packGroup s q) = ((upperBits s).drop (8 * q)).take 8 := by
  rw [upperBits, packGroup, List.map_take, List.map_drop, upperBits]

theorem packAccFrom_eq_of_upperBits_eq {g g' : List Byte} (i : Nat) (h : upperBits g = upperBits g') :
    packAccFrom i g = packAccFrom i g' := by
  induction g generalizing i g' with
  | nil =>
    cases g' with
    | nil => rfl
    | cons b' g' => cases h
  | cons b g ih =>
    cases g' with
    | nil => cases h
    | cons b' g' =>
      obtain ⟨hb, hg⟩ := List.cons.inj h
      have hb : b.toNat >>> 1 = b'.toNat >>> 1 := hb
      rw [packAccFrom, packAccFrom, hb, ih (i + 1) hg]

theorem half_lt (b : Byte) : b.toNat / 2 < 2 ^ 7 := by
  have := b.isLt
  omega

theorem testBit_half (b : Byte) (j : Nat) : (b.toNat / 2).testBit j = b.getLsbD (j + 1) := (Nat.testBit_succ b.toNat j).symm

/-- A 7-bit value is its bits 0 to 6, bits 1 to 7 of the byte. -/
theorem half_eq_of_getLsbD {b b' : Byte} (h : ∀ j < 7, b.getLsbD (j + 1) = b'.getLsbD (j + 1)) : b.toNat / 2 = b'.toNat / 2 := by
  apply Nat.eq_of_testBit_eq
  intro j
  rw [testBit_half, testBit_half]
  by_cases hj : j < 7
  · exact h j hj
  · rw [BitVec.getLsbD_of_ge b _ (by omega), BitVec.getLsbD_of_ge b' _ (by omega)]

/-! ### The bytes and bits of BitPack -/

theorem length_bitPack (s : List Byte) : (bitPack s).length = 7 * ((s.length + 7) / 8) :=
  length_flatMap_blocks _ _ fun q => be_length (packAcc (packGroup s q)) 7

theorem length_packGroup_le (s : List Byte) (q : Nat) : (packGroup s q).length ≤ 8 := List.length_take_le ..

theorem getD_packGroup (s : List Byte) (q : Nat) {k : Nat} (hk : k < 8) :
    (packGroup s q).getD k 0#8 = s.getD (8 * q + k) 0#8 := by
  rw [List.getD_eq_getElem?_getD, packGroup, List.getElem?_take_of_lt hk, List.getElem?_drop, ← List.getD_eq_getElem?_getD]

/-- The bit map of 44_bitpack.md R194. -/
theorem getLsbD_bitPack (s : List Byte) {q p : Nat} (hq : q < (s.length + 7) / 8) (hp : p < 56) :
    ((bitPack s).getD (7 * q + (6 - p / 8)) 0#8).getLsbD (p % 8) = (s.getD (8 * q + (7 - p / 7)) 0#8).getLsbD (p % 7 + 1) := by
  have hblock : (bitPack s)[7 * q + (6 - p / 8)]? = (be (packAcc (packGroup s q)) 7)[6 - p / 8]? :=
    getElem_flatMap_blocks _ _ (fun q => be_length (packAcc (packGroup s q)) 7) q _ hq (by omega)
  rw [List.getD_eq_getElem?_getD, hblock, ← List.getD_eq_getElem?_getD, getLsbD_be _ _ _ (by omega) (by omega),
    show 8 * (6 - (6 - p / 8)) + p % 8 = p by omega, testBit_packAcc (length_packGroup_le s q), decide_eq_true hp, Bool.true_and,
    getD_packGroup s q (by omega)]

/-- One group packs to one block (44_bitpack.md R191, R192). -/
theorem bitPack_group {g : List Byte} (h1 : 1 ≤ g.length) (h8 : g.length ≤ 8) : bitPack g = be (packAcc g) 7 := by
  have hone : (g.length + 7) / 8 = 1 := by omega
  have hgroup : packGroup g 0 = g := List.take_of_length_le h8
  rw [bitPack, hone, List.range_one, List.flatMap_singleton, hgroup]

theorem bitPack_eq_of_upperBits_eq {s s' : List Byte} (h : upperBits s = upperBits s') : bitPack s = bitPack s' := by
  have hacc : ∀ q, packAcc (packGroup s q) = packAcc (packGroup s' q) := fun q =>
    packAccFrom_eq_of_upperBits_eq 0 (by rw [upperBits_packGroup, upperBits_packGroup, h])
  simp only [bitPack, length_eq_of_upperBits_eq h, hacc]

/-! ### BitPack of a concatenation -/

theorem packGroup_append_left {s : List Byte} (t : List Byte) {n q : Nat} (hs : s.length = 8 * n) (hq : q < n) :
    packGroup (s ++ t) q = packGroup s q := by
  rw [packGroup, List.drop_append_of_le_length (by omega), List.take_append_of_le_length (by rw [List.length_drop]; omega), packGroup]

theorem packGroup_append_right {s : List Byte} (t : List Byte) {n : Nat} (hs : s.length = 8 * n) (q : Nat) :
    packGroup (s ++ t) (n + q) = packGroup t q := by
  rw [packGroup, Nat.mul_add, ← hs, List.drop_length_add_append, packGroup]

/-- Full groups in front are packed apart from what follows. -/
theorem bitPack_append {s : List Byte} (t : List Byte) (h : s.length % 8 = 0) : bitPack (s ++ t) = bitPack s ++ bitPack t := by
  obtain ⟨n, hs⟩ := Nat.dvd_of_mod_eq_zero h
  have hgroups : (s.length + 7) / 8 = n := by omega
  have hall : ((s ++ t).length + 7) / 8 = n + (t.length + 7) / 8 := by rw [List.length_append]; omega
  rw [bitPack, hall, List.range_add, List.flatMap_append, List.flatMap_map, bitPack, hgroups, bitPack]
  congr 1
  · refine List.flatMap_congr fun q hq => ?_
    rw [packGroup_append_left t hs (List.mem_range.1 hq)]
  · refine List.flatMap_congr fun q _ => ?_
    rw [packGroup_append_right t hs]

/-- What follows the blocks of the full groups is the block of the short final group (44_bitpack.md R192). -/
theorem drop_bitPack {s : List Byte} (h : 1 ≤ s.length % 8) :
    (bitPack s).drop (7 * (s.length / 8)) = be (packAcc (s.drop (8 * (s.length / 8)))) 7 := by
  have htake : (s.take (8 * (s.length / 8))).length = 8 * (s.length / 8) := List.length_take_of_le (by omega)
  have hdrop : (s.drop (8 * (s.length / 8))).length = s.length % 8 := by rw [List.length_drop]; omega
  have hfull : (bitPack (s.take (8 * (s.length / 8)))).length = 7 * (s.length / 8) := by rw [length_bitPack, htake]; omega
  calc (bitPack s).drop (7 * (s.length / 8))
      = (bitPack (s.take (8 * (s.length / 8)) ++ s.drop (8 * (s.length / 8)))).drop (7 * (s.length / 8)) := by
        rw [List.take_append_drop]
    _ = bitPack (s.drop (8 * (s.length / 8))) := by rw [bitPack_append _ (by omega), List.drop_left' hfull]
    _ = be (packAcc (s.drop (8 * (s.length / 8)))) 7 := bitPack_group (by omega) (by omega)

/-! ### A full group in byte form (44_bitpack.md R194) -/

/-- Byte `k` of a block: the low `7 - k` bits of value `k` over the high `k + 1` bits of value `k + 1`. -/
def blockByte (k v w : Nat) : Byte := BitVec.ofNat 8 ((v % 2 ^ (7 - k)) <<< (k + 1) ||| w >>> (6 - k))

theorem getLsbD_blockByte {k v w r : Nat} (hk : k < 7) (hw : w < 2 ^ 7) (hr : r < 8) :
    (blockByte k v w).getLsbD r = if r ≤ k then w.testBit (6 - k + r) else v.testBit (r - (k + 1)) := by
  rw [blockByte, BitVec.getLsbD_ofNat, decide_eq_true hr, Bool.true_and, Nat.testBit_or, Nat.testBit_shiftLeft,
    Nat.testBit_shiftRight, Nat.testBit_mod_two_pow]
  split
  case isTrue h => rw [decide_eq_false (by omega : ¬ r ≥ k + 1), Bool.false_and, Bool.false_or]
  case isFalse h =>
    have hhigh : w.testBit (6 - k + r) = false :=
      Nat.testBit_lt_two_pow (hw.trans_le (Nat.pow_le_pow_right (by decide) (by omega)))
    rw [hhigh, decide_eq_true (by omega : r ≥ k + 1), decide_eq_true (by omega : r - (k + 1) < 7 - k), Bool.true_and,
      Bool.true_and, Bool.or_false]

theorem getD_be_packAcc {g : List Byte} (hg : g.length ≤ 8) {k : Nat} (hk : k < 7) :
    (be (packAcc g) 7).getD k 0#8 = blockByte k ((g.getD k 0#8).toNat / 2) ((g.getD (k + 1) 0#8).toNat / 2) := by
  apply BitVec.eq_of_getLsbD_eq
  intro r hr
  rw [getLsbD_be _ _ _ hk hr, testBit_packAcc hg, decide_eq_true (by omega : 8 * (6 - k) + r < 56), Bool.true_and,
    getLsbD_blockByte hk (half_lt _) hr, testBit_half, testBit_half]
  split
  case isTrue h =>
    rw [show 7 - (8 * (6 - k) + r) / 7 = k + 1 by omega, show (8 * (6 - k) + r) % 7 = 6 - k + r by omega]
  case isFalse h =>
    rw [show 7 - (8 * (6 - k) + r) / 7 = k by omega, show (8 * (6 - k) + r) % 7 = r - (k + 1) by omega]

/-- A list of seven bytes, byte by byte. -/
theorem eq_map_range_seven {l : List Byte} (h : l.length = 7) : l = (List.range 7).map fun k => l.getD k 0#8 := by
  match l, h with
  | [_, _, _, _, _, _, _], _ => rfl

/-- The masks of R194 are remainders. -/
theorem blockBytes_eq_blockByte {v0 : Nat} (v1 v2 v3 v4 v5 v6 v7 : Nat) (h0 : v0 < 2 ^ 7) :
    blockBytes v0 v1 v2 v3 v4 v5 v6 v7 = [blockByte 0 v0 v1, blockByte 1 v1 v2, blockByte 2 v2 v3, blockByte 3 v3 v4,
      blockByte 4 v4 v5, blockByte 5 v5 v6, blockByte 6 v6 v7] := by
  have hmask : ∀ v k, v % 2 ^ k = v &&& 2 ^ k - 1 := fun v k => (Nat.and_two_pow_sub_one_eq_mod v k).symm
  simp only [blockBytes, blockByte, List.map_cons, List.map_nil, Nat.mod_eq_of_lt h0, hmask]
  rfl

/-! ### A block unpacked -/

/-- The number whose `be` form the bytes are (00_scope.md R12). -/
def beValue (o : List Byte) : Nat := o.foldl (fun a b => a * 256 + b.toNat) 0

theorem be_beValue (o : List Byte) : be (beValue o) o.length = o := by
  induction o using List.reverseRecOn with
  | nil => rfl
  | append_singleton o b ih =>
    rw [beValue, List.foldl_append, List.length_append]
    exact (be_append_byte (beValue o) b o.length).trans (by rw [ih])

/-- Eight bytes whose upper 7 bits are those of the accumulator and whose bit 0 is 0. -/
def unpackAcc (a : Nat) : List Byte := (List.range 8).map fun k => (BitVec.ofNat 7 (a >>> (7 * (7 - k)))).concat false

theorem length_unpackAcc (a : Nat) : (unpackAcc a).length = 8 := rfl

theorem getLsbD_unpackAcc (a : Nat) {k j : Nat} (hk : k < 8) (hj : j < 7) :
    ((unpackAcc a).getD k 0#8).getLsbD (j + 1) = a.testBit (7 * (7 - k) + j) := by
  have hbyte : (unpackAcc a).getD k 0#8 = (BitVec.ofNat 7 (a >>> (7 * (7 - k)))).concat false := by
    rw [unpackAcc, List.getD_eq_getElem?_getD, List.getElem?_map, List.getElem?_range hk]
    rfl
  rw [hbyte, BitVec.getLsbD_concat_succ, BitVec.getLsbD_ofNat, decide_eq_true hj, Bool.true_and, Nat.testBit_shiftRight]

/-- Bit by bit, below bit 56. -/
theorem be_packAcc_unpackAcc (a : Nat) : be (packAcc (unpackAcc a)) 7 = be a 7 := by
  rw [eq_map_range_seven (be_length (packAcc (unpackAcc a)) 7), eq_map_range_seven (be_length a 7)]
  refine List.map_congr_left fun k hk => ?_
  have hk : k < 7 := List.mem_range.1 hk
  apply BitVec.eq_of_getLsbD_eq
  intro r hr
  rw [getLsbD_be _ _ _ hk hr, getLsbD_be _ _ _ hk hr, testBit_packAcc (length_unpackAcc a).le,
    decide_eq_true (by omega : 8 * (6 - k) + r < 56), Bool.true_and, getLsbD_unpackAcc a (by omega) (by omega)]
  congr 1
  omega

theorem bitPack_unpackAcc {o : List Byte} (h : o.length = 7) : bitPack (unpackAcc (beValue o)) = o :=
  calc bitPack (unpackAcc (beValue o))
      = be (packAcc (unpackAcc (beValue o))) 7 := bitPack_group (by rw [length_unpackAcc]; decide) (length_unpackAcc _).le
    _ = be (beValue o) 7 := be_packAcc_unpackAcc _
    _ = o := h ▸ be_beValue o

/-- The bit map of a full group read from the byte to the block. -/
theorem getLsbD_fullGroup {s : List Byte} (hs : s.length = 8) {k j : Nat} (hk : k < 8) (hj : j < 7) :
    (s[k]'(hs ▸ hk)).getLsbD (j + 1) =
      ((bitPack s).getD (7 * 0 + (6 - (7 * (7 - k) + j) / 8)) 0#8).getLsbD ((7 * (7 - k) + j) % 8) := by
  rw [getLsbD_bitPack s (by omega) (by omega), show 8 * 0 + (7 - (7 * (7 - k) + j) / 7) = k by omega,
    show (7 * (7 - k) + j) % 7 = j by omega, List.getD_eq_getElem s 0#8 (hs ▸ hk)]

theorem upperBits_eq_of_bitPack_eq {s s' : List Byte} (hs : s.length = 8) (hs' : s'.length = 8) (h : bitPack s = bitPack s') :
    upperBits s = upperBits s' := by
  apply List.ext_getElem (by simp [upperBits, hs, hs'])
  intro k hk _
  have hk : k < 8 := by simpa [upperBits, hs] using hk
  simp only [upperBits, List.getElem_map]
  apply half_eq_of_getLsbD
  intro j hj
  rw [getLsbD_fullGroup hs hk hj, getLsbD_fullGroup hs' hk hj, h]

end Sys2Proof.Machine

/-! ### The obligations on PACK -/

namespace Sys2Proof.Proofs

open Sys2Proof.Machine

/-- Settles O27: PACK's unit function is `bitPack`, whose length and bit map are known. -/
theorem packCompletes : Obligations.PackCompletes := by
  unfold Obligations.PackCompletes
  intro s x hw hx hl
  obtain ⟨t, ht, hsucceeds⟩ := exec_succeeds (i := .pack) (bs := bitPack x) hw hx rfl ((length_bitPack x).trans_le hl)
  exact ⟨t, bitPack x, ht, hsucceeds, length_bitPack x, fun q p => getLsbD_bitPack x⟩

/-- Settles O28: the one block of a full group, byte by byte. -/
theorem fullGroupByteForm : Obligations.FullGroupByteForm := by
  unfold Obligations.FullGroupByteForm
  intro b0 b1 b2 b3 b4 b5 b6 b7
  rw [bitPack_group (by simp) (by simp), blockBytes_eq_blockByte _ _ _ _ _ _ _ (half_lt b0), eq_map_range_seven (be_length _ 7),
    List.map_congr_left fun k hk => getD_be_packAcc (by simp) (List.mem_range.1 hk)]
  rfl

/-- Settles O29: group by group for the concatenation, and by the bit map for the bijection. -/
theorem bitPackLaws : Obligations.BitPackLaws := by
  unfold Obligations.BitPackLaws
  refine ⟨length_bitPack, ?_, ?_, ?_, ?_⟩
  · exact fun s t h => bitPack_append t h
  · exact fun s s' h => bitPack_eq_of_upperBits_eq h
  · exact fun s s' hs hs' h => upperBits_eq_of_bitPack_eq hs hs' h
  · exact fun o h => ⟨unpackAcc (beValue o), length_unpackAcc _, bitPack_unpackAcc h⟩

/-- Settles O30: the accumulator is the one of the final group, none of whose low bits comes from a byte. -/
theorem shortGroupLowBitsZero : Obligations.ShortGroupLowBitsZero := by
  unfold Obligations.ShortGroupLowBitsZero
  refine ⟨rfl, fun s => ⟨length_bitPack s, fun h => ⟨packAcc (s.drop (8 * (s.length / 8))), ?_⟩⟩⟩
  have hlen : (s.drop (8 * (s.length / 8))).length = s.length % 8 := by rw [List.length_drop]; omega
  refine ⟨?_, packAcc_lt (by omega), ?_⟩
  · rw [drop_bitPack h, be_eq_beRef]
  · rw [← hlen]
    exact packAcc_mod_eq_zero (by omega)

end Sys2Proof.Proofs

/-! # The layer pipeline (45_layer.md)

When the stages of a layer succeed, the errors they can end with, a stage run on the result of the one before, and the statements on
the LAYER commands. -/

namespace Sys2Proof.Machine

/-! ### The unit function of a command that succeeded -/

/-- A result passes the capacity check. -/
theorem fitsOut_bind_eq_ok_iff {n : Nat} {r : Except Err (List Byte)} {bs : List Byte} :
    r.bind (fitsOut n) = .ok bs ↔ r = .ok bs ∧ bs.length ≤ n := by
  constructor
  · intro h
    obtain ⟨cs, rfl, hfits⟩ := except_bind_ok h
    obtain ⟨rfl, hl⟩ := fitsOut_eq_ok hfits
    exact ⟨rfl, hl⟩
  · rintro ⟨rfl, hl⟩
    exact fitsOut_of_le hl

theorem statusErr_ne_ok (e : Err) : statusErr e ≠ 0x00000002#32 := fun h =>
  absurd (statusErr_mem_errorStatuses e) (by rw [h]; decide)

/-- A buffer holds one result. -/
theorem Memory.Holds.unique {m : Memory} {bs cs : List Byte} (h : m.Holds bs) (h' : m.Holds cs) : bs = cs :=
  List.ext_getElem? fun i => (h i).symm.trans (h' i)

/-- A completion that succeeds is that of a result that fits. -/
theorem ok_of_succeeds_complete {s : State} {u : Except Err (List Byte)} {r : List Byte}
    (h : Succeeds s (s.complete (u.bind (fitsOut s.cfg.maxOut))) r) : u = .ok r ∧ r.length ≤ s.cfg.maxOut := by
  cases hu : u.bind (fitsOut s.cfg.maxOut) with
  | error e =>
    rw [hu] at h
    exact absurd h.status (statusErr_ne_ok e)
  | ok cs =>
    rw [hu] at h
    obtain rfl := h.outMem.unique (Memory.holds_ofBytes cs)
    exact fitsOut_bind_eq_ok_iff.1 hu

/-- The converse of `exec_succeeds`. -/
theorem unitOf_eq_ok_of_succeeds {i : Instr} {s t : State} {r : List Byte} (h : exec i s = .next t) (hs : Succeeds s t r) :
    ∃ x, s.HasInput x ∧ unitOf s.cfg.maxOut i x = .ok r ∧ r.length ≤ s.cfg.maxOut := by
  rw [exec_eq_runUnit] at h
  rcases runUnit_cases (unitOf s.cfg.maxOut i) s with ⟨_, h'⟩ | ⟨_, _, h'⟩ | ⟨x, hx, h'⟩ <;> cases h.symm.trans h'
  · exact absurd hs.status (statusErr_ne_ok .inRange)
  · exact ⟨x, hx, ok_of_succeeds_complete hs⟩

/-! ### When the stages of a layer succeed (R211) -/

theorem extractDecode_eq_ok_iff {n : Nat} {c d : List Byte} :
    extractDecode n c = .ok d ↔ ∃ p, extract c = .ok p ∧ p.length ≤ n ∧ b85Decode p = .ok d := by
  rw [extractDecode]
  constructor
  · intro h
    obtain ⟨p, hp, hd⟩ := except_bind_ok h
    obtain ⟨hp, hl⟩ := fitsOut_bind_eq_ok_iff.1 hp
    exact ⟨p, hp, hl, hd⟩
  · rintro ⟨p, hp, hl, hd⟩
    rw [fitsOut_bind_eq_ok_iff.2 ⟨hp, hl⟩]
    exact hd

/-- A layer with a transform after the decoder, as LAYER.XOR and LAYER.PARPACK have it. -/
theorem extractDecode_map_eq_ok_iff {n : Nat} {c r : List Byte} {g : List Byte → List Byte} :
    ((extractDecode n c).bind (fitsOut n)).map g = .ok r ↔ ∃ d, extractDecode n c = .ok d ∧ d.length ≤ n ∧ g d = r := by
  constructor
  · intro h
    obtain ⟨d, hd, hr⟩ := except_map_ok h
    obtain ⟨hd, hl⟩ := fitsOut_bind_eq_ok_iff.1 hd
    exact ⟨d, hd, hl, hr⟩
  · rintro ⟨d, hd, hl, rfl⟩
    rw [fitsOut_bind_eq_ok_iff.2 ⟨hd, hl⟩]
    rfl

/-! ### The model's layers are the transcription (R211) -/

/-- The lines of `Layer` after its decoder. -/
def layerFinish (n sel : Nat) (d : List Byte) : Except Err (List Byte) :=
  if sel = 0 then .ok d
  else (fitsOut n d).map fun d => if sel = 1 then xorRotate d else bitPack (parityFilter d)

theorem layerRef_eq_bind (n sel : Nat) (c : List Byte) : layerRef n sel c = (extractDecode n c).bind (layerFinish n sel) := by
  rw [layerRef, extractDecode]
  cases extract c with
  | error e => rfl
  | ok p =>
    by_cases hp : n < p.length
    · rw [Except.bind, fitsOut_of_lt hp]
      exact if_pos hp
    · rw [Except.bind, fitsOut_of_le (Nat.le_of_not_lt hp)]
      simp only [if_neg hp, Except.bind]
      cases b85Decode p with
      | error e => rfl
      | ok d =>
        simp only [layerFinish, fitsOut]
        split_ifs <;> rfl

/-- The LAYER commands with their selectors (R212 to R214). -/
def layerSelectors : List (Instr × Nat) := [(.layerNone, 0), (.layerXor, 1), (.layerParpack, 2)]

theorem unitOf_eq_layerRef (n : Nat) {i : Instr} {sel : Nat} (h : (i, sel) ∈ layerSelectors) (c : List Byte) :
    unitOf n i c = layerRef n sel c := by
  rw [layerRef_eq_bind]
  simp only [layerSelectors, List.mem_cons, Prod.mk.injEq, List.not_mem_nil, or_false] at h
  obtain ⟨rfl, rfl⟩ | ⟨rfl, rfl⟩ | ⟨rfl, rfl⟩ := h
  · show extractDecode n c = _
    cases extractDecode n c <;> rfl
  · show ((extractDecode n c).bind (fitsOut n)).map xorRotate = _
    cases extractDecode n c <;> rfl
  · show ((extractDecode n c).bind (fitsOut n)).map (fun d => bitPack (parityFilter d)) = _
    cases extractDecode n c <;> rfl

/-! ### The errors of a layer -/

/-- The errors of the two markers, of the decoder and of the capacity checks (60_exceptions.md R231). -/
def layerErrors : List Err := .startMissing :: .endMissing :: .outRange :: decodeErrors

theorem mem_layerErrors_of_extract {c : List Byte} {e : Err} (h : extract c = .error e) : e ∈ layerErrors := by
  unfold extract at h
  split at h
  · cases h; decide
  · split at h <;> cases h
    decide

theorem mem_layerErrors_of_b85Decode {p : List Byte} {e : Err} (h : b85Decode p = .error e) : e ∈ layerErrors := by
  have hd := mem_decodeErrors_of_b85Decode h
  exact (by decide : ∀ e ∈ decodeErrors, e ∈ layerErrors) e hd

/-- A layer ends with the error of the first stage or capacity check that fails. -/
theorem mem_layerErrors_of_layerRef {n sel : Nat} {c : List Byte} {e : Err} (h : layerRef n sel c = .error e) : e ∈ layerErrors := by
  unfold layerRef at h
  split at h
  next hextract => cases h; exact mem_layerErrors_of_extract hextract
  next p hextract =>
    split at h
    · cases h; decide
    · split at h
      next hdecode => cases h; exact mem_layerErrors_of_b85Decode hdecode
      next d hdecode =>
        split_ifs at h
        cases h; decide

/-! ### A carrier of an encoded payload (40_extract.md R105, 41_base85.md R131) -/

/-- The loop passes digit characters and `z` only. -/
theorem isDigitChar_or_z_of_decodeLoop {body : List Byte} {st st' : List Byte × List Nat} (h : decodeLoop st body = .ok st')
    {c : Byte} (hc : c ∈ body) : IsDigitChar c ∨ c.toNat = 122 := by
  by_contra hbad
  obtain ⟨hdigit, hz⟩ := not_or.1 hbad
  obtain ⟨pre, post, rfl⟩ := List.append_of_mem hc
  rw [decodeLoop_append] at h
  obtain ⟨mid, _, hrest⟩ := except_bind_ok h
  rw [decodeLoop_cons, decodeLoopStep_badChar mid hdigit hz] at hrest
  cases hrest

/-- The encoder writes no byte of a marker's `~`, since the decoder passes all it writes. -/
theorem tilde_notMem_encodeBody (b : List Byte) : 0x7E#8 ∉ encodeBody b := by
  intro hmem
  obtain ⟨st, hloop, _⟩ := except_bind_ok (decode_encodeBody b [])
  rcases isDigitChar_or_z_of_decodeLoop hloop hmem with ⟨_, hhi⟩ | hz
  · exact absurd hhi (by decide)
  · exact absurd hz (by decide)

/-- Whitespace aside `x` is encoded, so it holds no `~`, and the end marker cannot begin in it or at the `~` before it. -/
theorem noPair_of_filter_eq_encodeBody {x b : List Byte} (hx : x.head? ≠ some 0x3E#8)
    (hb : x.filter (fun c => !isWhitespace c) = encodeBody b) : NoPair 0x7E#8 0x3E#8 (0x7E#8 :: x) 0 := by
  intro j _ hj
  obtain ⟨htilde, hgt⟩ := hj
  rw [List.getElem?_cons_succ] at hgt
  cases j with
  | zero => exact hx (List.head?_eq_getElem?.trans hgt)
  | succ j =>
    have hmem : 0x7E#8 ∈ x := List.mem_of_getElem? htilde
    exact tilde_notMem_encodeBody b (hb ▸ List.mem_filter.2 ⟨hmem, by decide⟩)

theorem extractDecode_carrier {n : Nat} {pre x b : List Byte} (post : List Byte) (hpre : NoPair 0x3C#8 0x7E#8 pre 0)
    (hx : x.head? ≠ some 0x3E#8) (hb : x.filter (fun c => !isWhitespace c) = encodeBody b) (hl : (encodeBody b).length + 4 ≤ n) :
    extractDecode n (pre ++ [0x3C#8, 0x7E#8] ++ x ++ [0x7E#8, 0x3E#8] ++ post) = .ok b := by
  have hp := extract_bracketed post hpre (noPair_of_filter_eq_encodeBody hx hb)
  rw [hb] at hp
  refine extractDecode_eq_ok_iff.2 ⟨_, hp, ?_, ?_⟩
  · simp only [List.length_append, List.length_cons, List.length_nil]
    omega
  · rw [b85Decode_brackets]
    exact decode_encodeBody b []

/-! ### A stage on the result of the one before (R215) -/

section Chained

variable {c : Config} (hw : c.wf = true) (hcap : c.maxOut ≤ c.maxIn)
include hw

/-- The first stage of a chain. -/
theorem exec_stage {i : Instr} {s : State} {x bs : List Byte} (hs : s.cfg = c) (hx : s.HasInput x)
    (hu : unitOf c.maxOut i x = .ok bs) (hl : bs.length ≤ c.maxOut) :
    ∃ t, exec i s = .next t ∧ Succeeds s t bs ∧ t.cfg = c := by
  subst hs
  obtain ⟨t, ht, hsucceeds⟩ := exec_succeeds hw hx hu hl
  exact ⟨t, ht, hsucceeds, hsucceeds.frame.cfg⟩

include hcap

/-- A later stage: a result that fits OUT_MEM can be loaded. -/
theorem exec_stage_loadInput {i : Instr} {t : State} {bs cs : List Byte} (ht : t.cfg = c) (hl : bs.length ≤ c.maxOut)
    (hu : unitOf c.maxOut i bs = .ok cs) (hl' : cs.length ≤ c.maxOut) :
    ∃ u, exec i (t.loadInput bs) = .next u ∧ Succeeds (t.loadInput bs) u cs ∧ u.cfg = c := by
  subst ht
  have hx := (hasInput_of_loadInput (s := t) hw (hl.trans hcap) (.refl _)).1
  exact exec_stage hw rfl hx hu hl'

/-- The two stages that every layer begins with. -/
theorem exec_extract_b85dec {s : State} {x d : List Byte} (hs : s.cfg = c) (hx : s.HasInput x)
    (h : extractDecode c.maxOut x = .ok d) (hl : d.length ≤ c.maxOut) :
    ∃ p t1 t2, (exec .extract s = .next t1 ∧ Succeeds s t1 p) ∧
      (exec .b85dec (t1.loadInput p) = .next t2 ∧ Succeeds (t1.loadInput p) t2 d) ∧ t2.cfg = c := by
  obtain ⟨p, hp, hpl, hd⟩ := extractDecode_eq_ok_iff.1 h
  obtain ⟨t1, h1, hs1, hc1⟩ := exec_stage (i := .extract) hw hs hx hp hpl
  obtain ⟨t2, h2, hs2, hc2⟩ := exec_stage_loadInput (i := .b85dec) hw hcap hc1 hpl hd hl
  exact ⟨p, t1, t2, ⟨h1, hs1⟩, ⟨h2, hs2⟩, hc2⟩

end Chained

end Sys2Proof.Machine

/-! ### The obligations on the LAYER commands -/

namespace Sys2Proof.Proofs

open Sys2Proof.Machine

/-- Settles O38: each command's unit function is the transcription, and its errors are those of the stages and of the capacity
checks. -/
theorem layerCommandsComplete : Obligations.LayerCommandsComplete := by
  unfold Obligations.LayerCommandsComplete
  intro s x hw hx p hp
  have hstatus : ∀ e ∈ layerErrors, (e, statusErr e) ∈ [(Err.startMissing, 0x00000112#32), (.endMissing, 0x00000212#32),
      (.bracket, 0x00000122#32), (.badChar, 0x00000222#32), (.zInGroup, 0x00000322#32), (.finalLen1, 0x00000422#32),
      (.overflow, 0x00000522#32), (.outRange, 0x00000242#32)] := by decide
  have hu := unitOf_eq_layerRef s.cfg.maxOut hp x
  cases h : layerRef s.cfg.maxOut p.2 x with
  | ok bs => exact ⟨exec_succeeds hw hx (hu.trans h), exec_outRange hx (hu.trans h)⟩
  | error e =>
    obtain ⟨t, ht, hf⟩ := exec_fails hx (hu.trans h)
    exact ⟨t, statusErr e, hstatus e (mem_layerErrors_of_layerRef h), ht, hf⟩

/-- Settles O39: the carrier decodes to `b`, whatever the transform that follows. -/
theorem layerDecodesCarriers : Obligations.LayerDecodesCarriers := by
  unfold Obligations.LayerDecodesCarriers
  intro s pre x post b hw hin hpre hx hb hp hl
  have hd := extractDecode_carrier post hpre hx hb hp
  refine ⟨?_, ?_, fun hfits => ?_⟩
  · exact exec_succeeds (i := .layerNone) hw hin hd hl
  · exact exec_succeeds (i := .layerXor) hw hin (extractDecode_map_eq_ok_iff.2 ⟨b, hd, hl, rfl⟩) ((length_xorRotate b).trans_le hl)
  · exact exec_succeeds (i := .layerParpack) hw hin (extractDecode_map_eq_ok_iff.2 ⟨b, hd, hl, rfl⟩) hfits

/-- Settles O40: each stage's result fits OUT_MEM, and so IN_MEM, where the next stage finds it. -/
theorem layerEqualsStagesChained : Obligations.LayerEqualsStagesChained := by
  unfold Obligations.LayerEqualsStagesChained
  intro s t r hw hcap
  refine ⟨fun h hs => ?_, fun h hs => ?_, fun h hs => ?_⟩
  · obtain ⟨x, hx, hu, hl⟩ := unitOf_eq_ok_of_succeeds h hs
    obtain ⟨d, hd, hdl, hr⟩ := extractDecode_map_eq_ok_iff.1 hu
    obtain ⟨p, t1, t2, ⟨h1, hs1⟩, ⟨h2, hs2⟩, hc2⟩ := exec_extract_b85dec hw hcap rfl hx hd hdl
    obtain ⟨t3, h3, hs3, _⟩ := exec_stage_loadInput (i := .xorrot) hw hcap hc2 hdl (congrArg Except.ok hr) hl
    exact ⟨p, d, t1, t2, t3, h1, hs1, h2, hs2, h3, hs3⟩
  · obtain ⟨x, hx, hu, hl⟩ := unitOf_eq_ok_of_succeeds h hs
    obtain ⟨p, t1, t2, ⟨h1, hs1⟩, ⟨h2, hs2⟩, _⟩ := exec_extract_b85dec hw hcap rfl hx hu hl
    exact ⟨p, t1, t2, h1, hs1, h2, hs2⟩
  · obtain ⟨x, hx, hu, hl⟩ := unitOf_eq_ok_of_succeeds h hs
    obtain ⟨d, hd, hdl, hr⟩ := extractDecode_map_eq_ok_iff.1 hu
    have hfl : (parityFilter d).length ≤ s.cfg.maxOut := (List.length_filter_le _ d).trans hdl
    obtain ⟨p, t1, t2, ⟨h1, hs1⟩, ⟨h2, hs2⟩, hc2⟩ := exec_extract_b85dec hw hcap rfl hx hd hdl
    obtain ⟨t3, h3, hs3, hc3⟩ := exec_stage_loadInput (i := .parity) hw hcap hc2 hdl rfl hfl
    obtain ⟨t4, h4, hs4, _⟩ := exec_stage_loadInput (i := .pack) hw hcap hc3 hfl (congrArg Except.ok hr) hl
    exact ⟨p, d, _, t1, t2, t3, t4, h1, hs1, h2, hs2, h3, hs3, h4, hs4⟩

end Sys2Proof.Proofs

/-! # Exceptions (60_exceptions.md)

The table of errors, the two ways a command can end, the capacity errors of the LAYER commands, and the statements on error
completions. -/

namespace Sys2Proof.Machine

/-! ### The table of errors (R231) -/

theorem statusErr_eq_iff_mem_errorTable (e : Err) (v : Word) : statusErr e = v ↔ (e, v) ∈ errorTable := by
  constructor
  · rintro rfl
    exact mem_errorTable e
  · exact (by decide : ∀ p ∈ errorTable, statusErr p.1 = p.2) (e, v)

/-! ### How a command ends -/

/-- The check of IN_LEN comes before any input byte is read (R233). -/
theorem exec_inRange (i : Instr) {s : State} (h : s.cfg.maxIn < s.inLen.toNat) :
    ∃ t, exec i s = .next t ∧ FailsWith s t (statusErr .inRange) :=
  ⟨_, (exec_eq_runUnit i s).trans (runUnit_of_inRange h), s.failsWith_completeErr .inRange⟩

theorem State.input_eq_none_iff (s : State) : s.input = none ↔ ∃ k, k < s.inLen.toNat ∧ s.inMem.read k = none := by
  simp only [State.input, Memory.readRange_eq_none, Nat.zero_add]

/-- A command within MAX_IN faults exactly where its input operand cannot be read (R238). -/
theorem exec_eq_fault_iff (i : Instr) {s : State} (hr : s.inLen.toNat ≤ s.cfg.maxIn) :
    exec i s = .fault .unwrittenInput ↔ s.input = none := by
  rw [exec_eq_runUnit]
  refine ⟨fun h => ?_, runUnit_of_unwritten hr⟩
  rcases runUnit_cases (unitOf s.cfg.maxOut i) s with ⟨_, h'⟩ | ⟨_, hn, _⟩ | ⟨x, _, h'⟩
  · cases h.symm.trans h'
  · exact hn
  · cases h.symm.trans h'

/-- A command that answers a next state has failed with an error of the table or succeeded with a result that fits OUT_MEM. -/
theorem exec_next {i : Instr} {s t : State} (hw : s.cfg.wf = true) (h : exec i s = .next t) :
    (∃ e, FailsWith s t (statusErr e)) ∨ ∃ bs, bs.length ≤ s.cfg.maxOut ∧ Succeeds s t bs := by
  rw [exec_eq_runUnit] at h
  obtain ⟨e, rfl⟩ | ⟨bs, hl, rfl⟩ := runUnit_next h
  · exact .inl ⟨e, s.failsWith_completeErr e⟩
  · exact .inr ⟨bs, hl, s.succeeds_completeOk bs (hl.trans_lt (Config.maxOut_lt s.cfg hw))⟩

theorem Memory.Holds.isSome_read {m : Memory} {bs : List Byte} (h : m.Holds bs) (k : Nat) :
    (m.read k).isSome = decide (k < bs.length) := by
  rw [h k, Bool.eq_iff_iff]
  simp

/-! ### The capacity errors of the LAYER commands (R234) -/

theorem extractDecode_of_extract_lt {n : Nat} {c p : List Byte} (hp : extract c = .ok p) (hl : n < p.length) :
    extractDecode n c = .error .outRange := by
  rw [extractDecode, hp, Except.bind, fitsOut_of_lt hl]
  rfl

/-- An error of the stages that every layer begins with is the layer's. -/
theorem unitOf_of_extractDecode_error {n : Nat} {i : Instr} {c : List Byte} {e : Err}
    (hi : i ∈ layerSelectors.map Prod.fst) (h : extractDecode n c = .error e) : unitOf n i c = .error e := by
  obtain ⟨p, hp, rfl⟩ := List.mem_map.1 hi
  rw [unitOf_eq_layerRef n hp, layerRef_eq_bind, h]
  rfl

/-- A layer with a transform after the decoder checks the decoded buffer. -/
theorem unitOf_of_extractDecode_lt {n : Nat} {i : Instr} {c d : List Byte} (hi : i ∈ layerSelectors.tail.map Prod.fst)
    (h : extractDecode n c = .ok d) (hl : n < d.length) : unitOf n i c = .error .outRange := by
  obtain ⟨p, hp, rfl⟩ := List.mem_map.1 hi
  have hsel : p.2 ≠ 0 := (by decide : ∀ p ∈ layerSelectors.tail, p.2 ≠ 0) p hp
  rw [unitOf_eq_layerRef n (List.mem_of_mem_tail hp), layerRef_eq_bind, h, Except.bind, layerFinish, if_neg hsel, fitsOut_of_lt hl]
  rfl

end Sys2Proof.Machine

/-! ### The obligations on exceptions -/

namespace Sys2Proof.Proofs

open Sys2Proof.Machine

/-- Settles O42: a result is checked after its unit function, an intermediate buffer of a layer after the stage that gave it, and an
error of the unit function is the command's. -/
theorem outRangeErrors : Obligations.OutRangeErrors := by
  unfold Obligations.OutRangeErrors
  intro s x hx
  refine ⟨fun i r hr hl => ?_, fun i p hi hp hl => ?_, fun i p d hi hp hpl hd hl => ?_, fun i e he => ?_⟩
  · exact exec_outRange hx hr hl
  · exact exec_fails hx (unitOf_of_extractDecode_error hi (extractDecode_of_extract_lt hp hl))
  · exact exec_fails hx (unitOf_of_extractDecode_lt hi (extractDecode_eq_ok_iff.2 ⟨p, hp, hpl, hd⟩) hl)
  · obtain ⟨t, ht, hf⟩ := exec_fails hx he
    exact ⟨t, statusErr e, mem_errorTable e, ht, hf⟩

/-- Settles O43: the fault is the failing read of the input operand, which fails at a NONE byte. -/
theorem unwrittenInputFaults : Obligations.UnwrittenInputFaults := by
  unfold Obligations.UnwrittenInputFaults
  intro i s hr
  exact (exec_eq_fault_iff i hr).trans s.input_eq_none_iff

/-- Settles O44: a command that answers a next state has failed or succeeded, and either way OUT_MEM holds OUT_LEN bytes. -/
theorem commandFrame : Obligations.CommandFrame := by
  unfold Obligations.CommandFrame
  intro i s t hw h
  obtain ⟨e, hf⟩ | ⟨bs, hl, hs⟩ := exec_next hw h
  · refine ⟨hf.frame, hf.phase, fun k => ?_, ?_, .inr ⟨hf.outLen, hf.status ▸ statusErr_mem_errorStatuses e⟩⟩
    · rw [hf.outLen]
      exact hf.outMem.isSome_read k
    · rw [hf.outLen]
      exact Nat.zero_le _
  · refine ⟨hs.frame, hs.phase, fun k => ?_, hs.outLen ▸ hl, .inl hs.status⟩
    rw [hs.outLen]
    exact hs.outMem.isSome_read k

/-- Settles O41: the check of IN_LEN is the first of every command. -/
theorem inRangeErrors : Obligations.InRangeErrors := by
  unfold Obligations.InRangeErrors
  intro i s h
  exact exec_inRange i h

/-- Settles O56: the literal table is `errorTable`. -/
theorem errorStatusTable : Obligations.ErrorStatusTable := by
  unfold Obligations.ErrorStatusTable
  exact statusErr_eq_iff_mem_errorTable

end Sys2Proof.Proofs

/-! # Reset and hazards (70_reset_and_hazards.md)

The step that takes the reset input, the commands on the empty input, the writes that are ignored while BUSY, and the statements on
them. -/

namespace Sys2Proof.Machine

/-! ### The reset input (R260) -/

/-- The reset input takes its turn while IDLE or while a command waits, and leaves the same state either way: the step of LATENCY that
has passed is abandoned with the command. -/
theorem step_reset {s : State} {ls : List Input} (hls : s.inputs = .reset :: ls) (hturn : s.phase = .busy → s.remaining ≠ 0) :
    step s = .next { s with inputs := ls }.resetBlock := by
  rcases Phase.idle_or_busy s.phase with hp | hp
  · exact step_host hp hls
  · rw [step_wait hp (hturn hp), hostTurn, State.tick_inputs, hls]
    rfl

/-! ### The empty input (R263) -/

theorem State.hasInput_nil {s : State} (h : s.inLen = 0#32) : s.HasInput [] :=
  State.hasInput_of_input (by rw [State.input, h]; rfl) (by rw [h]; exact Nat.zero_le _)

/-- The empty result fits OUT_MEM and OUT_LEN whatever the parameters are. -/
theorem exec_succeeds_nil {i : Instr} {s : State} {x : List Byte} (hx : s.HasInput x) (hu : unitOf s.cfg.maxOut i x = .ok []) :
    ∃ t, exec i s = .next t ∧ Succeeds s t [] := by
  refine ⟨s.completeOk [], ?_, s.succeeds_completeOk [] (by decide)⟩
  rw [exec_eq_runUnit, runUnit_of_hasInput hx, hu, Except.bind, fitsOut_of_le (Nat.zero_le _)]
  rfl

theorem extract_nil : extract [] = .error .startMissing := extract_of_noStart fun _ _ h => nomatch h.1

theorem b85Decode_nil : b85Decode [] = .error .bracket := rfl

theorem extractDecode_nil (n : Nat) : extractDecode n [] = .error .startMissing := by
  rw [extractDecode, extract_nil]
  rfl

/-! ### Writes by their location (R265) -/

/-- While BUSY a write to a location that takes writes is accepted and ignored. -/
theorem performAccess_write_busy {s u : State} {addr n v : Nat} {t : Target} (hp : s.phase = .busy)
    (ht : target s.cfg addr n = some t) (hu : writeTarget t v s = some u) :
    performAccess (.write addr n v) s = s.respond .written := by
  rw [performAccess_write ht hu, ignoreWhileBusy_busy u hp]

end Sys2Proof.Machine

/-! ### The obligations on reset and hazards -/

namespace Sys2Proof.Proofs

open Sys2Proof.Machine

/-- Settles O13: the step leaves the block as `resetBlock` makes it. -/
theorem resetInputResetsTheBlock : Obligations.ResetInputResetsTheBlock := by
  unfold Obligations.ResetInputResetsTheBlock
  intro s ls hls hturn
  exact ⟨_, step_reset hls hturn, rfl, rfl, rfl, rfl, rfl, rfl, Memory.holds_nil, Memory.holds_nil, rfl, rfl, rfl⟩

/-- Settles O14: the empty input has no start marker and no brackets, and the transforms make nothing of nothing. -/
theorem emptyInputResults : Obligations.EmptyInputResults := by
  unfold Obligations.EmptyInputResults
  intro s h
  have hx := State.hasInput_nil h
  have layer : ∀ i ∈ layerSelectors.map Prod.fst, ∃ t, exec i s = .next t ∧ FailsWith s t (statusErr .startMissing) :=
    fun i hi => exec_fails hx (unitOf_of_extractDecode_error hi (extractDecode_nil _))
  refine ⟨?_, layer .layerNone (by decide), layer .layerXor (by decide), layer .layerParpack (by decide), ?_, ?_, ?_, ?_⟩
  · exact exec_fails (i := .extract) hx extract_nil
  · exact exec_fails (i := .b85dec) hx b85Decode_nil
  · exact exec_succeeds_nil (i := .xorrot) hx rfl
  · exact exec_succeeds_nil (i := .parity) hx rfl
  · exact exec_succeeds_nil (i := .pack) hx rfl

/-- Settles O19: each write by its location, which takes writes or refuses them in every phase. -/
theorem busyWritesAreIgnored : Obligations.BusyWritesAreIgnored := by
  unfold Obligations.BusyWritesAreIgnored
  intro s v hw
  refine ⟨fun hp => ⟨?_, ?_, fun i hi => ?_⟩, ?_, ?_, fun i hi => ?_⟩
  · exact performAccess_write_busy hp (target_register s.cfg cmdOffset (by decide)) rfl
  · exact performAccess_write_busy hp (target_register s.cfg inLenOffset (by decide)) rfl
  · exact performAccess_write_busy hp (target_inByte_of_lt s.cfg i hw hi) rfl
  · exact performAccess_write_refused (target_register s.cfg statusOffset (by decide)) rfl
  · exact performAccess_write_refused (target_register s.cfg outLenOffset (by decide)) rfl
  · exact performAccess_write_refused (target_outByte_of_lt s.cfg i hw hi) rfl

end Sys2Proof.Proofs
